-- ==== Sys2Proof/Word.lean ====
section
/-! DEFINITION. The values of the KCE: bytes, byte sequences, 32-bit words (00_scope.md section 5.1). -/

namespace Sys2Proof

/-- A byte, an integer 0..255 (00_scope.md section 5.1). -/
abbrev Byte := BitVec 8

/-- A 32-bit register value, command word or hash word; bit 0 is the least significant. -/
abbrev Word := BitVec 32

/-- A byte sequence, indexed from 0 (00_scope.md section 5.1). -/
abbrev Bytes := List Byte

end Sys2Proof
end

