-- ==== Sys2Proof/Syntax.lean ====
section
/-! DEFINITION. The eight commands of the KCE (30_encoding.md rule R84), one constructor per row of
spec/opcode_table.json. A command's fields are the unsigned values of their bits (rule R83); its data
operands are not in the word but in the buffers `KEY`, `IV`, `DIN` (rule R91). -/

namespace Sys2Proof

/-- A command with its field values. `mode` and `pad` are the 3-bit codes of rule R82, the reserved codes
5, 6, 7 among them: a word that holds one is a legal word (rule R87). -/
inductive Instr where
  /-- `CLR`, 47_control.md rule R275. -/
  | clr
  /-- `B64E`, 40_codec.md rule R118. -/
  | b64e
  /-- `B64D`, 40_codec.md rule R119. -/
  | b64d
  /-- `KDF`, 41_key_derivation.md rule R147. -/
  | kdf (hash ksize : Bool)
  /-- `ENC`, 45_cipher_commands.md rule R245. -/
  | enc (mode pad : BitVec 3) (hash ksize text : Bool)
  /-- `DEC`, 45_cipher_commands.md rule R246. -/
  | dec (mode pad : BitVec 3) (hash ksize text : Bool)
  /-- `PWENC`, 46_password.md rule R261. -/
  | pwenc
  /-- `PWDEC`, 46_password.md rule R262. -/
  | pwdec
  deriving DecidableEq, Repr

end Sys2Proof
end

