-- ==== Sys2Proof/WellFormed.lean ====
section
/-! DEFINITION. What makes a command a term the host can send (30_encoding.md rules R82 to R87). -/

namespace Sys2Proof

/-- A command is well formed when every field fits its bits of the command word. The field types carry that
check (a 3-bit code, a bit), and rule R87 makes every 3-bit code, the reserved ones too, part of a legal
word; so no term of `Instr` is ill formed. What can be ill formed are the capacities
(`Config.wellFormed`, rule R6) and a host access (`Machine.Event.illFormed`, 20_memory.md rule R51). -/
def Instr.wellFormed : Instr → Bool
  | .clr => true
  | .b64e => true
  | .b64d => true
  | .kdf _ _ => true
  | .enc mode pad _ _ _ => decide (mode.toNat < 8) && decide (pad.toNat < 8)
  | .dec mode pad _ _ _ => decide (mode.toNat < 8) && decide (pad.toNat < 8)
  | .pwenc => true
  | .pwdec => true

end Sys2Proof
end

