-- ==== Sys2Proof/Decode.lean ====
section
/-! DEFINITION. The command word: decoder (30_encoding.md rule R89), encoder (rule R95), and the host's entry
`decodeTableWord`. -/

namespace Sys2Proof

/-- Why a word is no command (rule R86). All three are reported alike, as `IllegalCommand`. -/
inductive Illegal where
  /-- A bit of `RSV`, [31:13], is set (rule R85). -/
  | reservedBits
  /-- `OP` is 8 to 15 (rule R86). -/
  | reservedOp
  /-- A field the command does not use is not zero (rule R85). -/
  | unusedField
  deriving DecidableEq, Repr

/-- `OP`, bits [3:0] (rule R81). -/
def opField (w : Word) : BitVec 4 := w.extractLsb' 0 4
/-- `MODE`, bits [6:4]. -/
def modeField (w : Word) : BitVec 3 := w.extractLsb' 4 3
/-- `PAD`, bits [9:7]. -/
def padField (w : Word) : BitVec 3 := w.extractLsb' 7 3
/-- `HASH`, bit [10]. -/
def hashField (w : Word) : Bool := w.getLsbD 10
/-- `KSIZE`, bit [11]. -/
def ksizeField (w : Word) : Bool := w.getLsbD 11
/-- `TEXT`, bit [12]. -/
def textField (w : Word) : Bool := w.getLsbD 12
/-- `RSV`, bits [31:13]. -/
def rsvField (w : Word) : BitVec 19 := w.extractLsb' 13 19

/-- A command without fields: bits [12:4] must be zero (rules R85, R89). -/
def decodeBare (i : Instr) (w : Word) : Except Illegal Instr :=
  if w.extractLsb' 4 9 = 0#9 then .ok i else .error .unusedField

/-- `decode` of rule R89, total on every 32-bit word. -/
def decode (w : Word) : Except Illegal Instr :=
  if rsvField w ≠ 0#19 then .error .reservedBits
  else match (opField w).toNat with
    | 0 => decodeBare .clr w
    | 1 => decodeBare .b64e w
    | 2 => decodeBare .b64d w
    | 3 =>
      if w.extractLsb' 4 6 = 0#6 ∧ textField w = false
      then .ok (.kdf (hashField w) (ksizeField w)) else .error .unusedField
    | 4 => .ok (.enc (modeField w) (padField w) (hashField w) (ksizeField w) (textField w))
    | 5 => .ok (.dec (modeField w) (padField w) (hashField w) (ksizeField w) (textField w))
    | 6 => decodeBare .pwenc w
    | 7 => decodeBare .pwdec w
    | _ => .error .reservedOp

/-- One bit placed at position `n` of a word. -/
def bitAt (b : Bool) (n : Nat) : Word := (BitVec.ofBool b).setWidth 32 <<< n

/-- `OP | MODE << 4 | PAD << 7 | HASH << 10 | KSIZE << 11 | TEXT << 12` (rule R95). -/
def encodeFields (op : BitVec 4) (mode pad : BitVec 3) (hash ksize text : Bool) : Word :=
  op.setWidth 32 ||| (mode.setWidth 32 <<< 4) ||| (pad.setWidth 32 <<< 7) |||
    bitAt hash 10 ||| bitAt ksize 11 ||| bitAt text 12

/-- `enc(c)` of rule R95: the command word of a command. -/
def encode : Instr → Word
  | .clr => encodeFields 0#4 0#3 0#3 false false false
  | .b64e => encodeFields 1#4 0#3 0#3 false false false
  | .b64d => encodeFields 2#4 0#3 0#3 false false false
  | .kdf hash ksize => encodeFields 3#4 0#3 0#3 hash ksize false
  | .enc mode pad hash ksize text => encodeFields 4#4 mode pad hash ksize text
  | .dec mode pad hash ksize text => encodeFields 5#4 mode pad hash ksize text
  | .pwenc => encodeFields 6#4 0#3 0#3 false false false
  | .pwdec => encodeFields 7#4 0#3 0#3 false false false

/-- `OP` of a command (rule R84). -/
def Instr.opcode : Instr → Nat
  | .clr => 0
  | .b64e => 1
  | .b64d => 2
  | .kdf _ _ => 3
  | .enc _ _ _ _ _ => 4
  | .dec _ _ _ _ _ => 5
  | .pwenc => 6
  | .pwdec => 7

/-- The `mask` and `match` columns of the table of rule R84, in the order of `OP`. -/
def opcodeRows : List (Word × Word) :=
  [(0xFFFFFFFF#32, 0x00000000#32), (0xFFFFFFFF#32, 0x00000001#32), (0xFFFFFFFF#32, 0x00000002#32),
   (0xFFFFF3FF#32, 0x00000003#32), (0xFFFFE00F#32, 0x00000004#32), (0xFFFFE00F#32, 0x00000005#32),
   (0xFFFFFFFF#32, 0x00000006#32), (0xFFFFFFFF#32, 0x00000007#32)]

/-- A word selects a row when `w & mask = match` (rule R84); there is no row beyond the eight. -/
def rowSelects (n : Nat) (w : Word) : Bool :=
  match opcodeRows[n]? with
  | some (mask, value) => decide (w &&& mask = value)
  | none => false

/-- The word whose low `nbits` bits are those of `w`, every bit above zero (log 12). -/
def tableWord (nbits w : Nat) : Word := BitVec.ofNat 32 (w % 2 ^ nbits)

/-- The command the decoder reads from an instruction whose bits are `w`, numbered as
spec/opcode_table.json numbers them. A command is one 32-bit word (rule R80) whose place among bytes does
not exist (20_memory.md rule R60 item 7), so the table's numbering is the word's own. -/
def decodeTableWord (nbits w : Nat) : Option Instr :=
  match decode (tableWord nbits w) with
  | .ok i => some i
  | .error _ => none

end Sys2Proof
end

