-- ==== Sys2Proof/Config.lean ====
section
/-! DEFINITION. What an implementation fixes (00_scope.md rule R6), the constants KODEN fixes (rule R5),
and the one source of free values, the random draws (43_padding.md rule R196). -/

namespace Sys2Proof

/-- The four capacities of rule R6, in bytes: the parameters of one KCE instance. -/
structure Config where
  keyMax : Nat
  ivMax  : Nat
  inMax  : Nat
  outMax : Nat
  deriving DecidableEq, Repr

/-- The constraints rule R6 puts on the capacities. -/
def Config.wellFormed (c : Config) : Bool :=
  decide (24 ≤ c.keyMax) && decide (c.keyMax < 2 ^ 32) &&
  decide (8 ≤ c.ivMax) && decide (c.ivMax < 2 ^ 32) &&
  decide (1 ≤ c.inMax) && decide (c.inMax < 2 ^ 32) &&
  decide (1 ≤ c.outMax) && decide (c.outMax < 2 ^ 32)

/-- DESIGN CHOICE (log 4, unsafe for claims about runs from the reset state alone): the capacities of the
instance whose reset state is `Machine.State.reset`. `keyMax` and `inMax` are the values 95_test_vectors.md
section 2.10 uses; `outMax` is rule R6's bound `4 * ceil((IN_MAX + 8) / 3)` below which output may overflow. -/
def Config.reference : Config := { keyMax := 64, ivMax := 16, inMax := 256, outMax := 352 }

/-- `BLOCK`, the cipher block size (rule R5). -/
abbrev blockSize : Nat := 8
/-- `KEY_SINGLE`, the key size of the single cipher (rule R5). -/
abbrev keySingle : Nat := 8
/-- `KEY_TRIPLE`, the key size of the triple cipher (rule R5). -/
abbrev keyTriple : Nat := 24
/-- `IV_BYTES`, the IV size of every chaining mode (rule R5). -/
abbrev ivBytes : Nat := 8

/-- FREE VALUE (log 3): the byte the `n`-th `draw()` since reset gives. No rule constrains it (43_padding.md
rule R196, 93_implementation_defined.md I17): the constant has no body, so nothing can be proved of it. -/
opaque Config.drawByte : Nat → Byte

end Sys2Proof
end

