-- ==== Sys2Proof/Machine/State.lean ====
section
/-! DEFINITION. The architectural state of one KCE instance (10_state.md rule R20), the host's accesses it
steps on, the reasons a step can stop, and the state after reset (rule R40). -/

namespace Sys2Proof.Machine

/-- `STATUS.STATE` (10_state.md rule R25). Value 3 is never read, so no constructor stands for it. -/
inductive Phase where
  | idle
  | done
  | error
  deriving DecidableEq, Repr

/-- The error kinds of 60_exceptions.md rule R300, in the order of their codes 1 to 8. -/
inductive ErrKind where
  | invalidKeyLength
  | invalidIvLength
  | unsupportedConfiguration
  | malformedEncoding
  | paddingValidationFailed
  | nullOrEmptyInput
  | illegalCommand
  | bufferOverflow
  deriving DecidableEq, Repr

/-- The `Result` of 00_scope.md section 5.3: `Ok(v)` or `Err(kind)`. -/
abbrev Result := Except ErrKind

/-- What reaches one instance from outside, one event at a time in one total order (20_memory.md rule R62):
the host's two primitives `MemRead(off, size)` and `MemWrite(off, size, v)` (00_scope.md section 5.2), at a
byte offset in the register block (rule R57, log 6), and reset, which may fall between any two accesses
(70_reset_and_hazards.md rule R340, log 7). -/
inductive Event where
  | read (off size : Nat)
  | write (off size : Nat) (v : Word)
  | reset
  deriving DecidableEq, Repr

/-- The state of one instance. The first eight fields are the record of 10_state.md rule R20, whole. `cfg` is
the instance's configuration record (00_scope.md rule R6), which no step changes. The last three are the
model's own (logs 1, 2, 3). -/
structure State where
  /-- `KEY` -/
  key : Bytes
  /-- `IV`; empty means absent -/
  iv : Bytes
  /-- `DIN` -/
  din : Bytes
  /-- `DOUT`, the not yet read part of the result -/
  dout : Bytes
  /-- `STATE` -/
  phase : Phase
  /-- `ERR`; `none` is code 0 -/
  err : Option ErrKind
  /-- `OVF` -/
  ovf : Bool
  /-- `UDF` -/
  udf : Bool
  /-- the capacities of this instance -/
  cfg : Config
  /-- the host's accesses not yet performed, oldest first -/
  bus : List Event
  /-- the value the last read handed to the host -/
  rdata : Word
  /-- how many `draw()` bytes have been taken -/
  draws : Nat
  deriving DecidableEq, Repr

/-- Machine faults: none. No access ever raises a bus error from the KCE's side (10_state.md rule R29), and
an error of a command is a value in `STATUS`, a next state (60_exceptions.md rule R310). -/
inductive Fault where
  deriving DecidableEq, Repr

/-- Why a step is refused. -/
inductive Refusal where
  /-- raised by an arm of `exec` whose meaning is not written; safe (nothing is claimed). No arm is left. -/
  | notModelled (mnemonic : String)
  /-- raised by `step` on an access that is not 32 bits wide (20_memory.md rule R51, I16); safe: the spec has
  no step for it, so nothing is claimed of what follows. -/
  | accessNotWord
  /-- raised by `step` on an access at an offset that is no multiple of 4 (rule R51, I16); safe likewise. -/
  | accessMisaligned
  /-- raised by `step` on an access outside the 64-byte block (I16); safe likewise. -/
  | accessOutsideBlock
  deriving DecidableEq, Repr

/-- An instance with the capacities `c` right after reset (10_state.md rule R40), with no host access pending. -/
def State.resetWith (c : Config) : State :=
  { key := [], iv := [], din := [], dout := [], phase := .idle, err := none, ovf := false, udf := false,
    cfg := c, bus := [], rdata := 0#32, draws := 0 }

/-- The machine right after reset; its capacities are log 4's. -/
def State.reset : State := State.resetWith Config.reference

end Sys2Proof.Machine
end

