-- ==== Sys2Proof/Machine/Operands.lean ====
section
/-! DEFINITION. Operand forms: what the fields of the command word stand for (30_encoding.md rules R82, R83),
and the sequence operations the functions share (00_scope.md section 5.1; 20_memory.md rule R60). -/

namespace Sys2Proof.Machine

/-- The five cipher modes, in the order of their codes (rule R82). -/
inductive Mode where
  | ecb | cbc | cfb | ofb | cts
  deriving DecidableEq, Repr

/-- The five padding schemes, in the order of their codes (rule R82). -/
inductive Padding where
  | none | zeros | pkcs7 | ansix923 | iso10126
  deriving DecidableEq, Repr

/-- The mode a `MODE` code stands for; codes 5, 6, 7 are reserved (rules R82, R87). -/
def modeOf (code : BitVec 3) : Option Mode :=
  match code.toNat with
  | 0 => some .ecb
  | 1 => some .cbc
  | 2 => some .cfb
  | 3 => some .ofb
  | 4 => some .cts
  | _ => none

/-- The scheme a `PAD` code stands for; codes 5, 6, 7 are reserved (rules R82, R87). -/
def paddingOf (code : BitVec 3) : Option Padding :=
  match code.toNat with
  | 0 => some .none
  | 1 => some .zeros
  | 2 => some .pkcs7
  | 3 => some .ansix923
  | 4 => some .iso10126
  | _ => none

/-- `tlen(KSIZE)`, the target key length (rule R83). -/
def tlen (ksize : Bool) : Nat := if ksize then keyTriple else keySingle

/-- `sub(s, i, n)` (00_scope.md section 5.1). -/
def sub (s : Bytes) (i n : Nat) : Bytes := (s.drop i).take n

/-- `rep(b, n)`. -/
def rep (b : Byte) (n : Nat) : Bytes := List.replicate n b

/-- `xor(s, t)`, byte by byte. -/
def xorBytes (s t : Bytes) : Bytes := List.zipWith (· ^^^ ·) s t

/-- A count as a byte. -/
def byteOf (n : Nat) : Byte := BitVec.ofNat 8 n

/-- The blocks of a sequence: block `j` is `sub(s, 8*j, 8)` (20_memory.md rule R60 item 2). -/
def blocks (s : Bytes) : List Bytes := (List.range (s.length / blockSize)).map fun j => sub s (8 * j) 8

end Sys2Proof.Machine
end

