-- ==== Sys2Proof/Machine/Flags.lean ====
section
/-! DEFINITION. The codes and the flag word: `STATUS` (10_state.md rules R25, R30; 60_exceptions.md rule R300). -/

namespace Sys2Proof.Machine

/-- The two bits of `STATUS.STATE` (rule R25). -/
def Phase.code : Phase → BitVec 2
  | .idle => 0#2
  | .done => 1#2
  | .error => 2#2

/-- `code(k)` (rule R300). -/
def ErrKind.code : ErrKind → BitVec 4
  | .invalidKeyLength => 1#4
  | .invalidIvLength => 2#4
  | .unsupportedConfiguration => 3#4
  | .malformedEncoding => 4#4
  | .paddingValidationFailed => 5#4
  | .nullOrEmptyInput => 6#4
  | .illegalCommand => 7#4
  | .bufferOverflow => 8#4

/-- `ERR` as a number: 0 when no error is standing (rules R20, R25). -/
def errCode : Option ErrKind → BitVec 4
  | none => 0#4
  | some k => k.code

/-- `STATUS` as a word: `STATE` [1:0], zero [3:2], `ERR` [7:4], `OVF` [8], `UDF` [9], zero [31:10] (rule R25). -/
def State.statusWord (s : State) : Word :=
  0#22 ++ BitVec.ofBool s.udf ++ BitVec.ofBool s.ovf ++ errCode s.err ++ 0#2 ++ s.phase.code

end Sys2Proof.Machine
end

