-- ==== Sys2Proof/Machine/Ops.lean ====
section
/-! DEFINITION. The named operations on the state: the register accesses (10_state.md rules R23 to R29), the
command frame (30_encoding.md rule R90), ending with an error ("taking an exception", 60_exceptions.md rule
R310), reset, and taking the next host event. -/

namespace Sys2Proof.Machine

/-! ### Registers -/

/-- The registers of 10_state.md rule R23, and the reserved slots of rule R29. -/
inductive Reg where
  | cmd | status | keylen | ivlen | dinlen | doutlen | keypush | ivpush | dinpush | doutpop | reserved
  deriving DecidableEq, Repr

/-- The register at a byte offset of the block (rule R23). -/
def Reg.atOffset (off : Nat) : Reg :=
  match off with
  | 0x00 => .cmd
  | 0x04 => .status
  | 0x08 => .keylen
  | 0x0C => .ivlen
  | 0x10 => .dinlen
  | 0x14 => .doutlen
  | 0x18 => .keypush
  | 0x1C => .ivpush
  | 0x20 => .dinpush
  | 0x24 => .doutpop
  | _ => .reserved

/-- `zext_32(len(B))` (rule R26). -/
def lenWord (b : Bytes) : Word := BitVec.ofNat 32 b.length

/-- What a read of the register returns. Write-only registers and reserved slots read as 0 (rules R24, R27, R29). -/
def State.regValue (s : State) : Reg → Word
  | .cmd => 0#32
  | .status => s.statusWord
  | .keylen => lenWord s.key
  | .ivlen => lenWord s.iv
  | .dinlen => lenWord s.din
  | .doutlen => lenWord s.dout
  | .keypush => 0#32
  | .ivpush => 0#32
  | .dinpush => 0#32
  | .doutpop => (s.dout.headD 0#8).setWidth 32
  | .reserved => 0#32

/-- The side effect of a read: `DOUTPOP` removes the first byte of `DOUT`, or sets `UDF` when there is none
(rule R28); every other read has none (20_memory.md rule R55). -/
def State.afterRead (s : State) : Reg → State
  | .doutpop =>
    match s.dout with
    | [] => { s with udf := true }
    | _ :: rest => { s with dout := rest }
  | .cmd | .status | .keylen | .ivlen | .dinlen | .doutlen | .keypush | .ivpush | .dinpush | .reserved => s

/-- `MemRead` of a register: its value to the host, then its side effect. -/
def State.readReg (s : State) (r : Reg) : State := { s.afterRead r with rdata := s.regValue r }

/-- A push of one byte to `KEY` (rule R27): appended, or dropped with `OVF` set when the buffer is full. -/
def State.pushKey (s : State) (b : Byte) : State :=
  if s.key.length < s.cfg.keyMax then { s with key := s.key ++ [b] } else { s with ovf := true }

/-- A push of one byte to `IV` (rule R27). -/
def State.pushIv (s : State) (b : Byte) : State :=
  if s.iv.length < s.cfg.ivMax then { s with iv := s.iv ++ [b] } else { s with ovf := true }

/-- A push of one byte to `DIN` (rule R27). -/
def State.pushDin (s : State) (b : Byte) : State :=
  if s.din.length < s.cfg.inMax then { s with din := s.din ++ [b] } else { s with ovf := true }

/-- `MemWrite` of a register other than `CMD`: the low eight bits go to a push register's buffer (rule R27);
a write to any other register is ignored (rules R25, R26, R28, R29). The write to `CMD` is `step`'s: it runs
the command frame. -/
def State.writeReg (s : State) (r : Reg) (v : Word) : State :=
  match r with
  | .keypush => s.pushKey (v.setWidth 8)
  | .ivpush => s.pushIv (v.setWidth 8)
  | .dinpush => s.pushDin (v.setWidth 8)
  | .cmd | .status | .keylen | .ivlen | .dinlen | .doutlen | .doutpop | .reserved => s

/-! ### The command frame -/

/-- How every command ends (rule R90): the outcome in `STATE`, `ERR`, `DOUT`; `UDF` and `OVF` cleared; no
operand survives. -/
def State.settle (s : State) (p : Phase) (e : Option ErrKind) (out : Bytes) : State :=
  { s with key := [], iv := [], din := [], dout := out, phase := p, err := e, ovf := false, udf := false }

/-- TAKING AN EXCEPTION: a command that ends with the kind `k` (60_exceptions.md rule R310). No state is saved
and control goes nowhere; there is no return: the next command overwrites `STATE` and `ERR` (rule R311). -/
def State.takeError (s : State) (k : ErrKind) : State := s.settle .error (some k) []

/-- A command other than `CLR` that succeeds with the result `v` (rules R31, R90). -/
def State.succeed (s : State) (v : Bytes) : State := s.settle .done none v

/-- The end of `CLR`: `IDLE`, nothing standing (47_control.md rule R275). -/
def State.clear (s : State) : State := s.settle .idle none []

/-- The write of a word that decodes to no command (30_encoding.md rules R86, R90). -/
def State.illegalCommand (s : State) : State := s.takeError .illegalCommand

/-- The frame of rule R90 around the function of a command other than `CLR`, whose result on the operands
is `res`: `OVF` first, then the function's own error, then a result that does not fit `DOUT`. -/
def State.frame (s : State) (res : Result Bytes) : State :=
  if s.ovf then s.takeError .bufferOverflow
  else match res with
    | .error k => s.takeError k
    | .ok v => if v.length > s.cfg.outMax then s.takeError .bufferOverflow else s.succeed v

/-- The random bytes that the draws of the command about to run will give (log 3). -/
def State.nextDraw (s : State) (i : Nat) : Byte := Config.drawByte (s.draws + i)

/-- `n` bytes have been drawn (log 3). -/
def State.advanceDraws (s : State) (n : Nat) : State := { s with draws := s.draws + n }

/-! ### Events -/

/-- Reset (70_reset_and_hazards.md rule R340): every component of rule R20 at the value of rule R40. The
capacities are the instance's own; the host's pending accesses, the value it read last and the index of the
free values are not the KCE's state and stay (log 7). -/
def State.hardReset (s : State) : State :=
  { State.resetWith s.cfg with bus := s.bus, rdata := s.rdata, draws := s.draws }

/-- Why an access is refused (20_memory.md rule R51; 93_implementation_defined.md I16): not 32 bits wide, not
aligned, or outside the block of 64 bytes. -/
def Event.illFormed : Event → Option Refusal
  | .reset => none
  | .read off size | .write off size _ =>
    if size ≠ 4 then some .accessNotWord
    else if off % 4 ≠ 0 then some .accessMisaligned
    else if 64 ≤ off then some .accessOutsideBlock
    else none

/-- The next host event and the state in which it is performed (log 1). -/
def State.fetch (s : State) : Option (Event × State) :=
  match s.bus with
  | [] => none
  | e :: rest => some (e, { s with bus := rest })

/-- `s` with one more host event, to be performed before those pending. -/
def State.withEvent (s : State) (e : Event) : State := { s with bus := e :: s.bus }

end Sys2Proof.Machine
end

