-- ==== Sys2Proof/Machine/Codec.lean ====
section
/-! DEFINITION. The Text Codec, base64, and the commands `B64E` and `B64D` (40_codec.md). -/

namespace Sys2Proof.Machine

/-- The pad character `=` (rule R110). -/
def padChar : Byte := 0x3D#8

/-- `b64chr(i)` for a 6-bit value (rule R111). -/
def b64chr (i : BitVec 6) : Byte :=
  if i.toNat ≤ 25 then byteOf (0x41 + i.toNat)
  else if i.toNat ≤ 51 then byteOf (0x61 + (i.toNat - 26))
  else if i.toNat ≤ 61 then byteOf (0x30 + (i.toNat - 52))
  else if i.toNat = 62 then 0x2B#8
  else 0x2F#8

/-- `b64val(c)`, the inverse of `b64chr`; none for each of the other 192 byte values (rule R111). -/
def b64val (c : Byte) : Option (BitVec 6) :=
  if 0x41 ≤ c.toNat ∧ c.toNat ≤ 0x5A then some (BitVec.ofNat 6 (c.toNat - 0x41))
  else if 0x61 ≤ c.toNat ∧ c.toNat ≤ 0x7A then some (BitVec.ofNat 6 (c.toNat - 0x61 + 26))
  else if 0x30 ≤ c.toNat ∧ c.toNat ≤ 0x39 then some (BitVec.ofNat 6 (c.toNat - 0x30 + 52))
  else if c.toNat = 0x2B then some 62#6
  else if c.toNat = 0x2F then some 63#6
  else none

/-- The four characters of one group of `n` bytes (1, 2 or 3), absent bytes given as 0 (rule R112). -/
def encodeGroup (b0 b1 b2 : Byte) (n : Nat) : Bytes :=
  let v : BitVec 24 := b0 ++ b1 ++ b2
  [ b64chr (v.extractLsb' 18 6),
    b64chr (v.extractLsb' 12 6),
    if 2 ≤ n then b64chr (v.extractLsb' 6 6) else padChar,
    if n = 3 then b64chr (v.extractLsb' 0 6) else padChar ]

/-- `b64enc` (rule R112), group by group from index 0; the last group may have one or two bytes. -/
def b64enc : Bytes → Bytes
  | [] => []
  | [b0] => encodeGroup b0 0#8 0#8 1
  | [b0, b1] => encodeGroup b0 b1 0#8 2
  | b0 :: b1 :: b2 :: rest => encodeGroup b0 b1 b2 3 ++ b64enc rest

/-- `npad` of a group (rule R115): how many of its last characters are pad characters. -/
def groupPads (c2 c3 : Byte) (final : Bool) : Nat :=
  if final ∧ c2 = padChar ∧ c3 = padChar then 2
  else if final ∧ c3 = padChar then 1
  else 0

/-- A character that must be data (rule R115). -/
def dataChar (c : Byte) : Result (BitVec 6) :=
  match b64val c with
  | some i => .ok i
  | none => .error .malformedEncoding

/-- The value of a character in a position that holds data only when `present`: 0 otherwise (rule R115). -/
def optChar (c : Byte) (present : Bool) : Result (BitVec 6) := if present then dataChar c else .ok 0#6

/-- The bytes of one group of four characters (rule R115). -/
def decodeGroup (c0 c1 c2 c3 : Byte) (final : Bool) : Result Bytes := do
  let npad := groupPads c2 c3 final
  let v0 ← dataChar c0
  let v1 ← dataChar c1
  let v2 ← optChar c2 (decide (npad < 2))
  let v3 ← optChar c3 (decide (npad = 0))
  let v : BitVec 24 := v0 ++ v1 ++ v2 ++ v3
  if npad = 1 ∧ v.extractLsb' 0 8 ≠ 0#8 then .error .malformedEncoding
  else if npad = 2 ∧ v.extractLsb' 0 16 ≠ 0#16 then .error .malformedEncoding
  else .ok ([v.extractLsb' 16 8, v.extractLsb' 8 8, v.extractLsb' 0 8].take (3 - npad))

/-- `b64dec` (rule R115). A text whose length is no multiple of 4 leaves one to three characters over. -/
def b64dec : Bytes → Result Bytes
  | [] => .ok []
  | c0 :: c1 :: c2 :: c3 :: rest => do
    let head ← decodeGroup c0 c1 c2 c3 rest.isEmpty
    let tail ← b64dec rest
    .ok (head ++ tail)
  | _ => .error .malformedEncoding

/-- `exec(B64E, KEY, IV, DIN)` (rule R118). -/
def b64eFunction (din : Bytes) : Result Bytes := .ok (b64enc din)

/-- `exec(B64D, KEY, IV, DIN)` (rule R119). -/
def b64dFunction (din : Bytes) : Result Bytes := b64dec din

/-- `B64E` (rule R118) in the frame of 30_encoding.md rule R90. -/
def execB64e (s : State) : Host.Outcome State Fault Refusal := .next (s.frame (b64eFunction s.din))

/-- `B64D` (rule R119) in the frame. -/
def execB64d (s : State) : Host.Outcome State Fault Refusal := .next (s.frame (b64dFunction s.din))

end Sys2Proof.Machine
end

