-- ==== Sys2Proof/Machine/Hash.lean ====
section
/-! DEFINITION. The 128-bit hash `H128` of key derivation (41_key_derivation.md rules R130 to R136), MD5 by
decision D20 (log 9). -/

namespace Sys2Proof.Machine

/-- A word as four bytes, least significant byte first (20_memory.md rule R60 item 5). -/
def wordBytesLe (w : Word) : Bytes :=
  [w.extractLsb' 0 8, w.extractLsb' 8 8, w.extractLsb' 16 8, w.extractLsb' 24 8]

/-- `len64le(x)`: the eight bytes of a 64-bit number, least significant byte first (rule R131). -/
def len64le (x : BitVec 64) : Bytes := (List.range 8).map fun i => x.extractLsb' (8 * i) 8

/-- `z`, the number of zero bytes of the message padding: `(55 - L) mod 64` (rule R131). -/
def hashZeros (len : Nat) : Nat := ((55 - (len : Int)) % 64).toNat

/-- The padded message `M` (rule R131). -/
def hashPad (m : Bytes) : Bytes :=
  m ++ [0x80#8] ++ rep 0#8 (hashZeros m.length) ++ len64le (BitVec.ofNat 64 (8 * m.length))

/-- Word `X[i]` of a 64-byte block (rule R132). -/
def hashWord (b : Bytes) (i : Nat) : Word :=
  b.getD (4 * i + 3) 0#8 ++ b.getD (4 * i + 2) 0#8 ++ b.getD (4 * i + 1) 0#8 ++ b.getD (4 * i) 0#8

/-- The four state words `A`, `B`, `C`, `D`. -/
structure HashState where
  a : Word
  b : Word
  c : Word
  d : Word
  deriving DecidableEq, Repr

/-- The initial state (rule R133). -/
def hashInit : HashState := { a := 0x67452301#32, b := 0xEFCDAB89#32, c := 0x98BADCFE#32, d := 0x10325476#32 }

/-- `F(i, B, C, D)` (rule R134). -/
def hashF (i : Nat) (b c d : Word) : Word :=
  if i < 16 then (b &&& c) ||| (~~~b &&& d)
  else if i < 32 then (d &&& b) ||| (~~~d &&& c)
  else if i < 48 then b ^^^ c ^^^ d
  else c ^^^ (b ||| ~~~d)

/-- `g(i)`, the message index of a step (rule R134). -/
def hashIndex (i : Nat) : Nat :=
  if i < 16 then i
  else if i < 32 then (5 * i + 1) % 16
  else if i < 48 then (3 * i + 5) % 16
  else (7 * i) % 16

/-- `s(i)`, the rotation of a step (rule R134). -/
def hashShift (i : Nat) : Nat :=
  if i < 16 then [7, 12, 17, 22].getD (i % 4) 0
  else if i < 32 then [5, 9, 14, 20].getD (i % 4) 0
  else if i < 48 then [4, 11, 16, 23].getD (i % 4) 0
  else [6, 10, 15, 21].getD (i % 4) 0

/-- `T[0]` to `T[63]` (rule R135, the printed table). -/
def hashT : List Word :=
  [0xd76aa478, 0xe8c7b756, 0x242070db, 0xc1bdceee, 0xf57c0faf, 0x4787c62a, 0xa8304613, 0xfd469501,
   0x698098d8, 0x8b44f7af, 0xffff5bb1, 0x895cd7be, 0x6b901122, 0xfd987193, 0xa679438e, 0x49b40821,
   0xf61e2562, 0xc040b340, 0x265e5a51, 0xe9b6c7aa, 0xd62f105d, 0x02441453, 0xd8a1e681, 0xe7d3fbc8,
   0x21e1cde6, 0xc33707d6, 0xf4d50d87, 0x455a14ed, 0xa9e3e905, 0xfcefa3f8, 0x676f02d9, 0x8d2a4c8a] ++
  [0xfffa3942, 0x8771f681, 0x6d9d6122, 0xfde5380c, 0xa4beea44, 0x4bdecfa9, 0xf6bb4b60, 0xbebfbc70,
   0x289b7ec6, 0xeaa127fa, 0xd4ef3085, 0x04881d05, 0xd9d4d039, 0xe6db99e5, 0x1fa27cf8, 0xc4ac5665,
   0xf4292244, 0x432aff97, 0xab9423a7, 0xfc93a039, 0x655b59c3, 0x8f0ccc92, 0xffeff47d, 0x85845dd1,
   0x6fa87e4f, 0xfe2ce6e0, 0xa3014314, 0x4e0811a1, 0xf7537e82, 0xbd3af235, 0x2ad7d2bb, 0xeb86d391]

/-- One step of the block update on the block `x` (rule R136); additions are modulo 2^32. -/
def hashStep (x : Bytes) (h : HashState) (i : Nat) : HashState :=
  let f := hashF i h.b h.c h.d + h.a + hashT.getD i 0#32 + hashWord x (hashIndex i)
  { a := h.d, b := h.b + f.rotateLeft (hashShift i), c := h.b, d := h.c }

/-- The update of the state by one 64-byte block (rule R136). -/
def hashBlock (h : HashState) (x : Bytes) : HashState :=
  let t := (List.range 64).foldl (hashStep x) h
  { a := h.a + t.a, b := h.b + t.b, c := h.c + t.c, d := h.d + t.d }

/-- The 64-byte blocks of a padded message, in order (rule R132). -/
def hashBlocks (m : Bytes) : List Bytes := (List.range (m.length / 64)).map fun j => sub m (64 * j) 64

/-- `H128(m)` (rules R130 to R136). -/
def h128 (m : Bytes) : Bytes :=
  let h := (hashBlocks (hashPad m)).foldl hashBlock hashInit
  wordBytesLe h.a ++ wordBytesLe h.b ++ wordBytesLe h.c ++ wordBytesLe h.d

end Sys2Proof.Machine
end

