-- ==== Sys2Proof/Machine/KeyDerivation.lean ====
section
/-! DEFINITION. The key-derivation stage and the command `KDF` (41_key_derivation.md rules R145 to R147). -/

namespace Sys2Proof.Machine

/-- `fit(h, t)` for the target length of a `KSIZE` bit: the first eight digest bytes, or the sixteen and the
first eight again (rule R145). -/
def fit (h : Bytes) (ksize : Bool) : Bytes := if ksize then h ++ h.take 8 else h.take 8

/-- `derive_key(pp, use_hashing, tlen(KSIZE))` (rule R146). -/
def deriveKey (pp : Bytes) (useHashing ksize : Bool) : Result Bytes :=
  if useHashing then
    if pp.length = 0 then .error .nullOrEmptyInput else .ok (fit (h128 pp) ksize)
  else
    if pp.length ≠ tlen ksize then .error .invalidKeyLength else .ok pp

/-- `exec(KDF{HASH, KSIZE}, KEY, IV, DIN)` (rule R147). -/
def kdfFunction (hash ksize : Bool) (key : Bytes) : Result Bytes := deriveKey key hash ksize

/-- `KDF` (rule R147) in the frame of 30_encoding.md rule R90. -/
def execKdf (hash ksize : Bool) (s : State) : Host.Outcome State Fault Refusal :=
  .next (s.frame (kdfFunction hash ksize s.key))

end Sys2Proof.Machine
end

