-- ==== Sys2Proof/Machine/Des.lean ====
section
/-! DEFINITION. The block ciphers: DES and triple DES (42_des_core.md). -/

namespace Sys2Proof.Machine

/-- `permute(x, T)`: the string whose bit `i` is bit `T[i]` of `x`, bits numbered from 1, leftmost first
(rule R161). `m` is the number of entries of the table. -/
def permute {n : Nat} (m : Nat) (table : List Nat) (x : BitVec n) : BitVec m :=
  BitVec.ofNat m (table.foldl (fun acc j => 2 * acc + (x.getMsbD (j - 1)).toNat) 0)

/-- `IP` (rule R162). -/
def tableIP : List Nat :=
  [58, 50, 42, 34, 26, 18, 10, 2,
   60, 52, 44, 36, 28, 20, 12, 4,
   62, 54, 46, 38, 30, 22, 14, 6,
   64, 56, 48, 40, 32, 24, 16, 8,
   57, 49, 41, 33, 25, 17, 9, 1,
   59, 51, 43, 35, 27, 19, 11, 3,
   61, 53, 45, 37, 29, 21, 13, 5,
   63, 55, 47, 39, 31, 23, 15, 7]

/-- `FP` (rule R163). -/
def tableFP : List Nat :=
  [40, 8, 48, 16, 56, 24, 64, 32,
   39, 7, 47, 15, 55, 23, 63, 31,
   38, 6, 46, 14, 54, 22, 62, 30,
   37, 5, 45, 13, 53, 21, 61, 29,
   36, 4, 44, 12, 52, 20, 60, 28,
   35, 3, 43, 11, 51, 19, 59, 27,
   34, 2, 42, 10, 50, 18, 58, 26,
   33, 1, 41, 9, 49, 17, 57, 25]

/-- `E` (rule R164). -/
def tableE : List Nat :=
  [32, 1, 2, 3, 4, 5,
   4, 5, 6, 7, 8, 9,
   8, 9, 10, 11, 12, 13,
   12, 13, 14, 15, 16, 17,
   16, 17, 18, 19, 20, 21,
   20, 21, 22, 23, 24, 25,
   24, 25, 26, 27, 28, 29,
   28, 29, 30, 31, 32, 1]

/-- `P` (rule R166). -/
def tableP : List Nat :=
  [16, 7, 20, 21, 29, 12, 28, 17,
   1, 15, 23, 26, 5, 18, 31, 10,
   2, 8, 24, 14, 32, 27, 3, 9,
   19, 13, 30, 6, 22, 11, 4, 25]

/-- `PC1` (rule R168). -/
def tablePC1 : List Nat :=
  [57, 49, 41, 33, 25, 17, 9,
   1, 58, 50, 42, 34, 26, 18,
   10, 2, 59, 51, 43, 35, 27,
   19, 11, 3, 60, 52, 44, 36,
   63, 55, 47, 39, 31, 23, 15,
   7, 62, 54, 46, 38, 30, 22,
   14, 6, 61, 53, 45, 37, 29,
   21, 13, 5, 28, 20, 12, 4]

/-- `PC2` (rule R168). -/
def tablePC2 : List Nat :=
  [14, 17, 11, 24, 1, 5,
   3, 28, 15, 6, 21, 10,
   23, 19, 12, 4, 26, 8,
   16, 7, 27, 20, 13, 2,
   41, 52, 31, 37, 47, 55,
   30, 40, 51, 45, 33, 48,
   44, 49, 39, 56, 34, 53,
   46, 42, 50, 36, 29, 32]

/-- `S1` to `S8`, each four rows of sixteen columns (rule R165). -/
def tableS1 : List Nat :=
  [14, 4, 13, 1, 2, 15, 11, 8, 3, 10, 6, 12, 5, 9, 0, 7,
   0, 15, 7, 4, 14, 2, 13, 1, 10, 6, 12, 11, 9, 5, 3, 8,
   4, 1, 14, 8, 13, 6, 2, 11, 15, 12, 9, 7, 3, 10, 5, 0,
   15, 12, 8, 2, 4, 9, 1, 7, 5, 11, 3, 14, 10, 0, 6, 13]

def tableS2 : List Nat :=
  [15, 1, 8, 14, 6, 11, 3, 4, 9, 7, 2, 13, 12, 0, 5, 10,
   3, 13, 4, 7, 15, 2, 8, 14, 12, 0, 1, 10, 6, 9, 11, 5,
   0, 14, 7, 11, 10, 4, 13, 1, 5, 8, 12, 6, 9, 3, 2, 15,
   13, 8, 10, 1, 3, 15, 4, 2, 11, 6, 7, 12, 0, 5, 14, 9]

def tableS3 : List Nat :=
  [10, 0, 9, 14, 6, 3, 15, 5, 1, 13, 12, 7, 11, 4, 2, 8,
   13, 7, 0, 9, 3, 4, 6, 10, 2, 8, 5, 14, 12, 11, 15, 1,
   13, 6, 4, 9, 8, 15, 3, 0, 11, 1, 2, 12, 5, 10, 14, 7,
   1, 10, 13, 0, 6, 9, 8, 7, 4, 15, 14, 3, 11, 5, 2, 12]

def tableS4 : List Nat :=
  [7, 13, 14, 3, 0, 6, 9, 10, 1, 2, 8, 5, 11, 12, 4, 15,
   13, 8, 11, 5, 6, 15, 0, 3, 4, 7, 2, 12, 1, 10, 14, 9,
   10, 6, 9, 0, 12, 11, 7, 13, 15, 1, 3, 14, 5, 2, 8, 4,
   3, 15, 0, 6, 10, 1, 13, 8, 9, 4, 5, 11, 12, 7, 2, 14]

def tableS5 : List Nat :=
  [2, 12, 4, 1, 7, 10, 11, 6, 8, 5, 3, 15, 13, 0, 14, 9,
   14, 11, 2, 12, 4, 7, 13, 1, 5, 0, 15, 10, 3, 9, 8, 6,
   4, 2, 1, 11, 10, 13, 7, 8, 15, 9, 12, 5, 6, 3, 0, 14,
   11, 8, 12, 7, 1, 14, 2, 13, 6, 15, 0, 9, 10, 4, 5, 3]

def tableS6 : List Nat :=
  [12, 1, 10, 15, 9, 2, 6, 8, 0, 13, 3, 4, 14, 7, 5, 11,
   10, 15, 4, 2, 7, 12, 9, 5, 6, 1, 13, 14, 0, 11, 3, 8,
   9, 14, 15, 5, 2, 8, 12, 3, 7, 0, 4, 10, 1, 13, 11, 6,
   4, 3, 2, 12, 9, 5, 15, 10, 11, 14, 1, 7, 6, 0, 8, 13]

def tableS7 : List Nat :=
  [4, 11, 2, 14, 15, 0, 8, 13, 3, 12, 9, 7, 5, 10, 6, 1,
   13, 0, 11, 7, 4, 9, 1, 10, 14, 3, 5, 12, 2, 15, 8, 6,
   1, 4, 11, 13, 12, 3, 7, 14, 10, 15, 6, 8, 0, 5, 9, 2,
   6, 11, 13, 8, 1, 4, 10, 7, 9, 5, 0, 15, 14, 2, 3, 12]

def tableS8 : List Nat :=
  [13, 2, 8, 4, 6, 15, 11, 1, 10, 9, 3, 14, 5, 0, 12, 7,
   1, 15, 13, 8, 10, 3, 7, 4, 12, 5, 6, 11, 0, 14, 9, 2,
   7, 11, 4, 1, 9, 12, 14, 2, 0, 6, 10, 13, 15, 3, 5, 8,
   2, 1, 14, 7, 4, 10, 8, 13, 15, 12, 9, 0, 3, 5, 6, 11]

/-- A substitution box on a 6-bit string `b1 b2 b3 b4 b5 b6`: row `b1 b6`, column `b2 b3 b4 b5` (rule R165). -/
def sbox (table : List Nat) (x : BitVec 6) : BitVec 4 :=
  let row := 2 * (x.getMsbD 0).toNat + (x.getMsbD 5).toNat
  let column := (x.extractLsb' 1 4).toNat
  BitVec.ofNat 4 (table.getD (16 * row + column) 0)

/-- The eight boxes on a 48-bit string, `S1` on its leftmost six bits (rule R167). -/
def sboxes (x : BitVec 48) : BitVec 32 :=
  sbox tableS1 (x.extractLsb' 42 6) ++ sbox tableS2 (x.extractLsb' 36 6) ++
  sbox tableS3 (x.extractLsb' 30 6) ++ sbox tableS4 (x.extractLsb' 24 6) ++
  sbox tableS5 (x.extractLsb' 18 6) ++ sbox tableS6 (x.extractLsb' 12 6) ++
  sbox tableS7 (x.extractLsb' 6 6) ++ sbox tableS8 (x.extractLsb' 0 6)

/-- The round function `f(R, Kr)` (rule R167). -/
def roundF (r : BitVec 32) (kr : BitVec 48) : BitVec 32 :=
  permute 32 tableP (sboxes (permute 48 tableE r ^^^ kr))

/-- The left-rotation amounts of rounds 1 to 16 (rule R168). -/
def keyShifts : List Nat := [1, 1, 2, 2, 2, 2, 2, 2, 1, 2, 2, 2, 2, 2, 2, 1]

/-- The round keys for the rotation amounts still to come, from the halves `C`, `D` (rule R168). -/
def roundKeys (c d : BitVec 28) : List Nat → List (BitVec 48)
  | [] => []
  | n :: ns =>
    let c' := c.rotateLeft n
    let d' := d.rotateLeft n
    permute 48 tablePC2 (c' ++ d') :: roundKeys c' d' ns

/-- `KeySchedule(k)`, `K[1]` to `K[16]` (rule R168). -/
def keySchedule (k : BitVec 64) : List (BitVec 48) :=
  let cd : BitVec 56 := permute 56 tablePC1 k
  roundKeys (cd.extractLsb' 28 28) (cd.extractLsb' 0 28) keyShifts

/-- The rounds: `(L, R) <- (R, L xor f(R, K[r]))` for each round key in turn (rule R169). -/
def feistel : List (BitVec 48) → BitVec 32 → BitVec 32 → BitVec 32 × BitVec 32
  | [], l, r => (l, r)
  | k :: ks, l, r => feistel ks r (l ^^^ roundF r k)

/-- The whole block function for a list of round keys, with the final swap (rule R169). -/
def desBits (keys : List (BitVec 48)) (x : BitVec 64) : BitVec 64 :=
  let t : BitVec 64 := permute 64 tableIP x
  let lr := feistel keys (t.extractLsb' 32 32) (t.extractLsb' 0 32)
  permute 64 tableFP (lr.2 ++ lr.1)

/-- `bits(b)`: eight bytes as 64 bits, bit 1 the most significant bit of byte 0 (20_memory.md rule R60 item 3). -/
def bitsOfBlock (b : Bytes) : BitVec 64 :=
  BitVec.ofNat 64 (b.foldl (fun acc x => 256 * acc + x.toNat) 0)

/-- `bytes(x)`, the inverse of `bits`. -/
def blockOfBits (x : BitVec 64) : Bytes := (List.range 8).map fun i => x.extractLsb' (56 - 8 * i) 8

/-- `DesEnc(k, x)` (rule R169). -/
def desEnc (k x : Bytes) : Bytes := blockOfBits (desBits (keySchedule (bitsOfBlock k)) (bitsOfBlock x))

/-- `DesDec(k, y)`: the round keys in the opposite order (rule R170). -/
def desDec (k y : Bytes) : Bytes := blockOfBits (desBits (keySchedule (bitsOfBlock k)).reverse (bitsOfBlock y))

/-- `TdeaEnc(k, x)`, encrypt-decrypt-encrypt (rule R171). -/
def tdeaEnc (k x : Bytes) : Bytes := desEnc (sub k 16 8) (desDec (sub k 8 8) (desEnc (sub k 0 8) x))

/-- `TdeaDec(k, y)` (rule R171). -/
def tdeaDec (k y : Bytes) : Bytes := desDec (sub k 0 8) (desEnc (sub k 8 8) (desDec (sub k 16 8) y))

/-- `BlockEnc(K, x)`: the cipher is selected by the key's length (rule R173). Any other length is refused by
the commands before a block is processed, so what this function gives for it is never used (log 10). -/
def blockEnc (k x : Bytes) : Bytes := if k.length = keyTriple then tdeaEnc k x else desEnc k x

/-- `BlockDec(K, y)` (rule R173). -/
def blockDec (k y : Bytes) : Bytes := if k.length = keyTriple then tdeaDec k y else desDec k y

end Sys2Proof.Machine
end

