-- ==== Sys2Proof/Machine/Modes.lean ====
section
/-! DEFINITION. The five cipher modes and the IV rule (44_modes.md). -/

namespace Sys2Proof.Machine

/-- `IvCheck(MODE, IV)` (rule R211). -/
def ivCheck (mode : Mode) (iv : Bytes) : Result Unit :=
  if mode = .ecb then .ok ()
  else if iv.length = ivBytes then .ok ()
  else .error .invalidIvLength

/-- CBC encryption of a list of blocks after the block `prev` (rule R214). -/
def cbcEncBlocks (k prev : Bytes) : List Bytes → Bytes
  | [] => []
  | x :: xs =>
    let y := blockEnc k (xorBytes x prev)
    y ++ cbcEncBlocks k y xs

/-- CBC decryption (rule R214). -/
def cbcDecBlocks (k prev : Bytes) : List Bytes → Bytes
  | [] => []
  | y :: ys => xorBytes (blockDec k y) prev ++ cbcDecBlocks k y ys

/-- CFB encryption with a segment of one block (rule R215). -/
def cfbEncBlocks (k prev : Bytes) : List Bytes → Bytes
  | [] => []
  | x :: xs =>
    let y := xorBytes x (blockEnc k prev)
    y ++ cfbEncBlocks k y xs

/-- CFB decryption (rule R215). -/
def cfbDecBlocks (k prev : Bytes) : List Bytes → Bytes
  | [] => []
  | y :: ys => xorBytes y (blockEnc k prev) ++ cfbDecBlocks k y ys

/-- OFB, both directions, after the key-stream block `o` (rule R217). -/
def ofbBlocks (k o : Bytes) : List Bytes → Bytes
  | [] => []
  | x :: xs =>
    let o' := blockEnc k o
    xorBytes x o' ++ ofbBlocks k o' xs

/-- ECB encryption (rule R213). -/
def ecbEnc (k x : Bytes) : Bytes := ((blocks x).map (blockEnc k)).flatten
/-- ECB decryption (rule R213). -/
def ecbDec (k y : Bytes) : Bytes := ((blocks y).map (blockDec k)).flatten
/-- `ModeEnc(CBC, ..)` (rule R214). -/
def cbcEnc (k iv x : Bytes) : Bytes := cbcEncBlocks k iv (blocks x)
/-- `ModeDec(CBC, ..)` (rule R214). -/
def cbcDec (k iv y : Bytes) : Bytes := cbcDecBlocks k iv (blocks y)

/-- CTS encryption, variant CBC-CS1 (rule R218). -/
def ctsEnc (k iv x : Bytes) : Bytes :=
  let d := x.length % 8
  if d = 0 then cbcEnc k iv x
  else
    let y := cbcEnc k iv (x ++ rep 0#8 (8 - d))
    let m := y.length / 8
    y.take (8 * (m - 2)) ++ (sub y (8 * (m - 2)) 8).take d ++ y.drop (8 * (m - 1))

/-- CTS decryption (rule R219). -/
def ctsDec (k iv y : Bytes) : Bytes :=
  let d := y.length % 8
  if d = 0 then cbcDec k iv y
  else
    let m := y.length / 8 + 1
    let head := y.take (8 * (m - 2))
    let cpen := sub y (8 * (m - 2)) d
    let clast := sub y (8 * (m - 2) + d) 8
    let z := blockDec k clast
    let cfull := cpen ++ z.drop d
    let plast := xorBytes (z.take d) cpen
    let prev := if 2 < m then sub y (8 * (m - 3)) 8 else iv
    let ppen := xorBytes (blockDec k cfull) prev
    cbcDec k iv head ++ ppen ++ plast

/-- `ModeEnc(MODE, K, IV, x)` (rule R210). -/
def modeEnc (mode : Mode) (k iv x : Bytes) : Bytes :=
  match mode with
  | .ecb => ecbEnc k x
  | .cbc => cbcEnc k iv x
  | .cfb => cfbEncBlocks k iv (blocks x)
  | .ofb => ofbBlocks k iv (blocks x)
  | .cts => ctsEnc k iv x

/-- `ModeDec(MODE, K, IV, y)` (rule R210). -/
def modeDec (mode : Mode) (k iv y : Bytes) : Bytes :=
  match mode with
  | .ecb => ecbDec k y
  | .cbc => cbcDec k iv y
  | .cfb => cfbDecBlocks k iv (blocks y)
  | .ofb => ofbBlocks k iv (blocks y)
  | .cts => ctsDec k iv y

end Sys2Proof.Machine
end

