-- ==== Sys2Proof/Machine/Padding.lean ====
section
/-! DEFINITION. The padding selector (43_padding.md). -/

namespace Sys2Proof.Machine

/-- `n`, the count of the self-describing schemes: `8 - r` with `r = len(p) mod 8`, so 1 to 8 (rule R191). -/
def padCount (len : Nat) : Nat := 8 - len % 8

/-- How many bytes are drawn: `n - 1` for ISO10126, none for the others (rule R196). -/
def padDraws (p : Padding) (len : Nat) : Nat :=
  match p with
  | .iso10126 => padCount len - 1
  | .none | .zeros | .pkcs7 | .ansix923 => 0

/-- `pad(scheme, p)` (rule R191); `draw i` is the `i`-th byte drawn (rule R196). -/
def pad (scheme : Padding) (draw : Nat → Byte) (p : Bytes) : Bytes :=
  let n := padCount p.length
  match scheme with
  | .none => p
  | .zeros => p ++ rep 0#8 (n % 8)
  | .pkcs7 => p ++ rep (byteOf n) n
  | .ansix923 => p ++ rep 0#8 (n - 1) ++ [byteOf n]
  | .iso10126 => p ++ (List.range (n - 1)).map draw ++ [byteOf n]

/-- `x` without its trailing zero bytes (rule R197). -/
def stripZeros (x : Bytes) : Bytes := x.rdropWhile (· == 0#8)

/-- `unpad(scheme, x)` (rule R197). -/
def unpad (scheme : Padding) (x : Bytes) : Result Bytes :=
  let n := (x.getLastD 0#8).toNat
  let body := x.take (x.length - n)
  let filler := x.drop (x.length - n)
  match scheme with
  | .none => .ok x
  | .zeros => .ok (stripZeros x)
  | .pkcs7 =>
    if 1 ≤ n ∧ n ≤ 8 ∧ filler.all (· == byteOf n) then .ok body else .error .paddingValidationFailed
  | .ansix923 =>
    if 1 ≤ n ∧ n ≤ 8 ∧ filler.dropLast.all (· == 0#8) then .ok body else .error .paddingValidationFailed
  | .iso10126 =>
    if 1 ≤ n ∧ n ≤ 8 then .ok body else .error .paddingValidationFailed

end Sys2Proof.Machine
end

