-- ==== Sys2Proof/Machine/Cipher.lean ====
section
/-! DEFINITION. The commands `ENC` and `DEC` (45_cipher_commands.md): a validation phase, whose checks are
made in the order of rule R240, then a transformation phase. -/

namespace Sys2Proof.Machine

/-- The direction of the data check (rule R243). -/
inductive Dir where
  | enc | dec
  deriving DecidableEq, Repr

/-- `CfgCheck(MODE, PAD)` (rule R244): the configuration the two codes stand for, or the refusal of reserved
codes and of CTS with a padding. -/
def cfgCheck (modeCode padCode : BitVec 3) : Result (Mode × Padding) :=
  match modeOf modeCode, paddingOf padCode with
  | some m, some p => if m = .cts ∧ p ≠ .none then .error .unsupportedConfiguration else .ok (m, p)
  | _, _ => .error .unsupportedConfiguration

/-- `KeyCheck(HASH, KEY)` (rule R241). -/
def keyCheck (hash : Bool) (key : Bytes) : Result Unit :=
  if hash = false ∧ key.length ≠ keySingle ∧ key.length ≠ keyTriple then .error .invalidKeyLength
  else if hash = true ∧ key.length = 0 then .error .nullOrEmptyInput
  else .ok ()

/-- `EffKey(HASH, KSIZE, KEY)` (rule R241): a raw key is used unchanged and `KSIZE` is ignored. -/
def effKey (hash ksize : Bool) (key : Bytes) : Bytes := if hash then fit (h128 key) ksize else key

/-- The refusal of an empty `DIN` (rule R243). -/
def dinCheck (din : Bytes) : Result Unit := if din.length = 0 then .error .nullOrEmptyInput else .ok ()

/-- `DataCheck(dir, MODE, PAD, n)` (rule R243). -/
def dataCheck (dir : Dir) (m : Mode) (p : Padding) (n : Nat) : Result Unit :=
  if m = .cts then
    if n < 8 then .error .unsupportedConfiguration else .ok ()
  else match dir with
    | .enc => if p = .none ∧ n % 8 ≠ 0 then .error .unsupportedConfiguration else .ok ()
    | .dec => if n % 8 ≠ 0 then .error .unsupportedConfiguration else .ok ()

/-- The validation phase of `ENC` (rule R245): the configuration, when every check passes. -/
def encCheck (mode pad : BitVec 3) (hash : Bool) (key iv din : Bytes) : Result (Mode × Padding) := do
  let (m, p) ← cfgCheck mode pad
  keyCheck hash key
  ivCheck m iv
  dinCheck din
  dataCheck .enc m p din.length
  .ok (m, p)

/-- The transformation phase of `ENC` (rule R245); it cannot fail. -/
def encTransform (m : Mode) (p : Padding) (hash ksize text : Bool) (draw : Nat → Byte)
    (key iv din : Bytes) : Bytes :=
  let y := modeEnc m (effKey hash ksize key) iv (pad p draw din)
  if text then b64enc y else y

/-- `exec(ENC{..}, KEY, IV, DIN)` (rule R245), for given draws. -/
def encFunction (mode pad : BitVec 3) (hash ksize text : Bool) (draw : Nat → Byte)
    (key iv din : Bytes) : Result Bytes := do
  let (m, p) ← encCheck mode pad hash key iv din
  .ok (encTransform m p hash ksize text draw key iv din)

/-- How many bytes the `ENC` issued in `s` draws: those of its padding when the frame runs its function and
its validation passes, none otherwise (43_padding.md rule R196; log 3). -/
def encDraws (mode pad : BitVec 3) (hash : Bool) (s : State) : Nat :=
  if s.ovf then 0
  else match encCheck mode pad hash s.key s.iv s.din with
    | .ok (_, p) => padDraws p s.din.length
    | .error _ => 0

/-- `ENC` (rule R245) in the frame of 30_encoding.md rule R90. -/
def execEnc (mode pad : BitVec 3) (hash ksize text : Bool) (s : State) : Host.Outcome State Fault Refusal :=
  .next ((s.advanceDraws (encDraws mode pad hash s)).frame
    (encFunction mode pad hash ksize text s.nextDraw s.key s.iv s.din))

/-- The ciphertext of `DEC`: `DIN` itself, or the decoded text when `TEXT = 1` (rule R246). -/
def ciphertext (text : Bool) (din : Bytes) : Result Bytes := if text then b64dec din else .ok din

/-- The validation phase of `DEC` (rule R246): the configuration and the ciphertext, when every check passes. -/
def decCheck (mode pad : BitVec 3) (hash text : Bool) (key iv din : Bytes) :
    Result (Mode × Padding × Bytes) := do
  let (m, p) ← cfgCheck mode pad
  keyCheck hash key
  ivCheck m iv
  dinCheck din
  let y ← ciphertext text din
  dataCheck .dec m p y.length
  .ok (m, p, y)

/-- `exec(DEC{..}, KEY, IV, DIN)` (rule R246). -/
def decFunction (mode pad : BitVec 3) (hash ksize text : Bool) (key iv din : Bytes) : Result Bytes := do
  let (m, p, y) ← decCheck mode pad hash text key iv din
  unpad p (modeDec m (effKey hash ksize key) iv y)

/-- `DEC` (rule R246) in the frame. -/
def execDec (mode pad : BitVec 3) (hash ksize text : Bool) (s : State) : Host.Outcome State Fault Refusal :=
  .next (s.frame (decFunction mode pad hash ksize text s.key s.iv s.din))

end Sys2Proof.Machine
end

