-- ==== Sys2Proof/Machine/Control.lean ====
section
/-! DEFINITION. The control command `CLR` (47_control.md rule R275). -/

namespace Sys2Proof.Machine

/-- `CLR`: the frame with `Ok([])` and `IDLE`, whatever `OVF` is (rule R275). -/
def execClr (s : State) : Host.Outcome State Fault Refusal := .next s.clear

end Sys2Proof.Machine
end

