-- ==== Sys2Proof/Machine/Password.lean ====
section
/-! DEFINITION. The password variant: the commands `PWENC` and `PWDEC` (46_password.md). -/

namespace Sys2Proof.Machine

/-- The pass-through test, before every other check of the command's function (rules R261, R262). -/
def passThrough (key din : Bytes) : Bool := decide (din.length = 0 ∨ key.length = 0)

/-- The password must be exactly eight bytes (rule R260 item 3). -/
def passwordCheck (key : Bytes) : Result Unit :=
  if key.length ≠ keySingle then .error .invalidKeyLength else .ok ()

/-- `exec(PWENC, KEY, IV, DIN)` (rule R261). PKCS7 draws nothing, so the draws given to `pad` have no part. -/
def pwencFunction (key din : Bytes) : Result Bytes :=
  if passThrough key din then .ok din
  else do
    passwordCheck key
    .ok (b64enc (modeEnc .ecb key (key.take 8) (pad .pkcs7 (fun _ => 0#8) din)))

/-- `exec(PWDEC, KEY, IV, DIN)` (rule R262). -/
def pwdecFunction (key din : Bytes) : Result Bytes :=
  if passThrough key din then .ok din
  else do
    passwordCheck key
    let y ← b64dec din
    if y.length % 8 ≠ 0 then .error .unsupportedConfiguration
    else unpad .pkcs7 (modeDec .ecb key (key.take 8) y)

/-- `PWENC` (rule R261) in the frame of 30_encoding.md rule R90. -/
def execPwenc (s : State) : Host.Outcome State Fault Refusal := .next (s.frame (pwencFunction s.key s.din))

/-- `PWDEC` (rule R262) in the frame. -/
def execPwdec (s : State) : Host.Outcome State Fault Refusal := .next (s.frame (pwdecFunction s.key s.din))

end Sys2Proof.Machine
end

