-- ==== Sys2Proof/Machine/Dispatch.lean ====
section
/-! DEFINITION. The command a decoded word executes: one arm per constructor of `Instr`. -/

namespace Sys2Proof.Machine

def exec (i : Instr) (s : State) : Host.Outcome State Fault Refusal :=
  match i with
  | .clr => Sys2Proof.Machine.execClr s
  | .b64e => Sys2Proof.Machine.execB64e s
  | .b64d => Sys2Proof.Machine.execB64d s
  | .kdf hash ksize => Sys2Proof.Machine.execKdf hash ksize s
  | .enc mode pad hash ksize text => Sys2Proof.Machine.execEnc mode pad hash ksize text s
  | .dec mode pad hash ksize text => Sys2Proof.Machine.execDec mode pad hash ksize text s
  | .pwenc => Sys2Proof.Machine.execPwenc s
  | .pwdec => Sys2Proof.Machine.execPwdec s

end Sys2Proof.Machine
end

