-- ==== Sys2Proof/Machine/Step.lean ====
section
/-! DEFINITION. One step of the machine: one host access or reset, performed whole (20_memory.md rules R54, R62). -/

namespace Sys2Proof.Machine

/-- A write of `w` to `CMD`: the command it decodes to, or the illegal word's outcome (30_encoding.md rule R90). -/
def commandWrite (w : Word) (s : State) : Host.Outcome State Fault Refusal :=
  match decode w with
  | .ok i => exec i s
  | .error _ => .next s.illegalCommand

/-- A `MemWrite` of `v` to the register `r` (10_state.md rules R24 to R29). -/
def regWrite (r : Reg) (v : Word) (s : State) : Host.Outcome State Fault Refusal :=
  match r with
  | .cmd => commandWrite v s
  | .status | .keylen | .ivlen | .dinlen | .doutlen | .keypush | .ivpush | .dinpush | .doutpop | .reserved =>
    .next (s.writeReg r v)

/-- An event that is well formed, performed. -/
def perform (e : Event) (s : State) : Host.Outcome State Fault Refusal :=
  match e with
  | .reset => .next s.hardReset
  | .read off _ => .next (s.readReg (Reg.atOffset off))
  | .write off _ v => regWrite (Reg.atOffset off) v s

/-- One step: the oldest pending event is performed, or refused by name when it is no access the spec gives
(20_memory.md rule R51). With nothing pending nothing changes: the KCE steps only when accessed
(60_exceptions.md rules R315, R325). -/
def step (s : State) : Host.Outcome State Fault Refusal :=
  match s.fetch with
  | none => .next s
  | some (e, s') =>
    match e.illFormed with
    | some r => .refused r
    | none => perform e s'

/-- `s` with the command word `w` written to `CMD` as the host's next access (log 1): the very next step runs
the command it encodes. Nothing else changes. -/
def State.withFetchWord (s : State) (nbits w : Nat) : State := s.withEvent (.write 0x00 4 (tableWord nbits w))

end Sys2Proof.Machine
end

