-- ==== Sys2Proof/Safety.lean ====
section
/-! DEFINITION. What the claims are stated in: the invariant of the reachable states, the function of each
command as 30_encoding.md rule R90 calls it, the table of rule R302, and the lengths of results. -/

namespace Sys2Proof.Machine

/-- Every buffer is within its capacity (10_state.md rule R20). -/
abbrev State.WithinCapacity (s : State) : Prop :=
  s.key.length ≤ s.cfg.keyMax ∧ s.iv.length ≤ s.cfg.ivMax ∧
  s.din.length ≤ s.cfg.inMax ∧ s.dout.length ≤ s.cfg.outMax

/-- What holds between two accesses: legal capacities (00_scope.md rule R6), buffers within them (10_state.md
rule R20), `ERR ≠ 0` if and only if `STATE = ERROR` (rule R25), and a result only in `DONE` (rule R28: in
`IDLE` and `ERROR` the buffer is empty). -/
abbrev State.Inv (s : State) : Prop :=
  s.cfg.wellFormed = true ∧ s.WithinCapacity ∧ (s.err ≠ none ↔ s.phase = .error) ∧
  (s.phase ≠ .done → s.dout = [])

/-- The command's own function, `exec(d, KEY, IV, DIN)` of 30_encoding.md rule R90, for given draws. -/
def commandFunction (i : Instr) (draw : Nat → Byte) (key iv din : Bytes) : Result Bytes :=
  match i with
  | .clr => .ok []
  | .b64e => b64eFunction din
  | .b64d => b64dFunction din
  | .kdf hash ksize => kdfFunction hash ksize key
  | .enc mode pad hash ksize text => encFunction mode pad hash ksize text draw key iv din
  | .dec mode pad hash ksize text => decFunction mode pad hash ksize text key iv din
  | .pwenc => pwencFunction key din
  | .pwdec => pwdecFunction key din

/-- How many bytes a command draws: only `ENC` does. -/
def commandDraws (i : Instr) (s : State) : Nat :=
  match i with
  | .enc mode pad hash _ _ => encDraws mode pad hash s
  | .clr | .b64e | .b64d | .kdf _ _ | .dec _ _ _ _ _ | .pwenc | .pwdec => 0

/-- The state after the host's events `es`, each performed in turn; none when one of them is refused. -/
def afterEvents (s : State) : List Event → Option State
  | [] => some s
  | e :: es =>
    match step (s.withEvent e) with
    | .next t => afterEvents t es
    | .fault _ => none
    | .refused _ => none

/-- Which command can end with which kind (60_exceptions.md rule R302, the crosses of its table). -/
def canEndWith (i : Instr) (k : ErrKind) : Bool :=
  match i, k with
  | .clr, _ => false
  | _, .illegalCommand => false
  | _, .bufferOverflow => true
  | .b64d, .malformedEncoding => true
  | .kdf hash _, .invalidKeyLength => !hash
  | .kdf hash _, .nullOrEmptyInput => hash
  | .enc _ _ hash _ _, .invalidKeyLength => !hash
  | .enc .., .invalidIvLength => true
  | .enc .., .unsupportedConfiguration => true
  | .enc .., .nullOrEmptyInput => true
  | .dec _ _ hash _ _, .invalidKeyLength => !hash
  | .dec .., .invalidIvLength => true
  | .dec .., .unsupportedConfiguration => true
  | .dec _ _ _ _ text, .malformedEncoding => text
  | .dec .., .paddingValidationFailed => true
  | .dec .., .nullOrEmptyInput => true
  | .pwenc, .invalidKeyLength => true
  | .pwdec, .invalidKeyLength => true
  | .pwdec, .unsupportedConfiguration => true
  | .pwdec, .malformedEncoding => true
  | .pwdec, .paddingValidationFailed => true
  | _, _ => false

/-- `4 * ceil(n / 3)`, the length of the text of `n` bytes (40_codec.md rule R112). -/
def textLength (n : Nat) : Nat := 4 * ((n + 2) / 3)

/-- The length of `pad(scheme, p)` for `len(p) = n` (43_padding.md rule R191). -/
def paddedLength (p : Padding) (n : Nat) : Nat :=
  match p with
  | .none => n
  | .zeros => 8 * ((n + 7) / 8)
  | .pkcs7 | .ansix923 | .iso10126 => 8 * (n / 8 + 1)

/-- The length of the result of an `ENC` of `n` bytes (45_cipher_commands.md rule R245). -/
def encLength (p : Padding) (text : Bool) (n : Nat) : Nat :=
  if text then textLength (paddedLength p n) else paddedLength p n

/-- The raw key or passphrase passes `KeyCheck` (45_cipher_commands.md rule R241). -/
abbrev KeyOk (hash : Bool) (key : Bytes) : Prop :=
  if hash then key ≠ [] else key.length = 8 ∨ key.length = 24

/-- The mode and padding are a supported combination (44_modes.md rule R212). -/
abbrev Supported (m : Mode) (p : Padding) : Prop := m = .cts → p = .none

/-- The IV suits the mode (44_modes.md rule R211). -/
abbrev IvOk (m : Mode) (iv : Bytes) : Prop := m ≠ .ecb → iv.length = 8

/-- A length `ENC` can process (45_cipher_commands.md rule R243). -/
abbrev EncLengthOk (m : Mode) (p : Padding) (n : Nat) : Prop :=
  1 ≤ n ∧ (m = .cts → 8 ≤ n) ∧ (m ≠ .cts → p = .none → n % 8 = 0)

/-- A length `DEC` can process (45_cipher_commands.md rule R243). -/
abbrev DecLengthOk (m : Mode) (n : Nat) : Prop :=
  1 ≤ n ∧ (m = .cts → 8 ≤ n) ∧ (m ≠ .cts → n % 8 = 0)

end Sys2Proof.Machine
end

