-- ==== Sys2Proof/Certificates/Slice0/Obligations.lean ====
section
/-! DEFINITION. The statements about the machine, in the order of the spec's files. Each is listed in
OBLIGATIONS.json. A host access of 32 bits at offset `o` is `Event.read o 4` or `Event.write o 4 v`;
`step (s.withEvent e)` performs it in the state `s`. -/

open Sys2Proof Sys2Proof.Machine

/-! ### 10_state.md: registers, flags, reset -/

/-- Rule R24, and that A STEP RUNS THE DECODED COMMAND: the oldest pending access is taken off `bus`; a write to
`CMD` is `exec` of the command its word decodes to, or the outcome of an illegal word, and nothing else is done
around it; a read of `CMD` returns 0 and has no effect. `withFetchWord` places such a write. (That pending
accesses stand in a list is the model's choice, log 1.) -/
def Obligations.StepRunsTheDecodedCommand : Prop :=
  (∀ (s : State) (w : Word) (rest : List Event) (i : Instr),
    s.bus = .write 0x00 4 w :: rest → decode w = .ok i → step s = exec i { s with bus := rest }) ∧
  (∀ (s : State) (w : Word) (rest : List Event) (x : Illegal),
    s.bus = .write 0x00 4 w :: rest → decode w = .error x →
    step s = .next ({ s with bus := rest }.settle .error (some .illegalCommand) [])) ∧
  (∀ (s : State) (w : Nat) (i : Instr),
    decodeTableWord 32 w = some i → step (s.withFetchWord 32 w) = exec i s) ∧
  (∀ s : State, step (s.withEvent (.read 0x00 4)) = .next { s with rdata := 0#32 })

/-- Rule R25: the fields of `STATUS` and its reset value; `ERR ≠ 0` if and only if `STATE = ERROR`; no result
stands unless `STATE` is `DONE`; it is read-only and a read has no side effect. -/
def Obligations.StatusWordLayout : Prop :=
  ∀ s : State,
    (s.statusWord.extractLsb' 0 2).toNat =
      (match s.phase with | .idle => 0 | .done => 1 | .error => 2) ∧
    s.statusWord.extractLsb' 2 2 = 0#2 ∧
    (s.statusWord.extractLsb' 4 4).toNat =
      (match s.err with
        | none => 0
        | some .invalidKeyLength => 1
        | some .invalidIvLength => 2
        | some .unsupportedConfiguration => 3
        | some .malformedEncoding => 4
        | some .paddingValidationFailed => 5
        | some .nullOrEmptyInput => 6
        | some .illegalCommand => 7
        | some .bufferOverflow => 8) ∧
    s.statusWord.getLsbD 8 = s.ovf ∧
    s.statusWord.getLsbD 9 = s.udf ∧
    s.statusWord.extractLsb' 10 22 = 0#22 ∧
    (s.Inv → (s.statusWord.extractLsb' 4 4 ≠ 0#4 ↔ s.statusWord.extractLsb' 0 2 = 2#2)) ∧
    (s.Inv → s.statusWord.extractLsb' 0 2 ≠ 1#2 → s.dout = []) ∧
    (∀ c, (State.resetWith c).statusWord = 0#32) ∧
    step (s.withEvent (.read 0x04 4)) = .next { s with rdata := s.statusWord } ∧
    (∀ v, step (s.withEvent (.write 0x04 4 v)) = .next s)

/-- Rule R26: the length registers return the lengths of the buffers, have no side effect and ignore writes;
`DOUTLEN` goes down by one with every successful pop. -/
def Obligations.LengthRegistersReportBuffers : Prop :=
  ∀ s : State, s.Inv →
    (∃ w, step (s.withEvent (.read 0x08 4)) = .next { s with rdata := w } ∧ w.toNat = s.key.length) ∧
    (∃ w, step (s.withEvent (.read 0x0C 4)) = .next { s with rdata := w } ∧ w.toNat = s.iv.length) ∧
    (∃ w, step (s.withEvent (.read 0x10 4)) = .next { s with rdata := w } ∧ w.toNat = s.din.length) ∧
    (∃ w, step (s.withEvent (.read 0x14 4)) = .next { s with rdata := w } ∧ w.toNat = s.dout.length) ∧
    (∀ v, step (s.withEvent (.write 0x08 4 v)) = .next s ∧ step (s.withEvent (.write 0x0C 4 v)) = .next s ∧
      step (s.withEvent (.write 0x10 4 v)) = .next s ∧ step (s.withEvent (.write 0x14 4 v)) = .next s) ∧
    (s.dout ≠ [] → ∃ t u, step (s.withEvent (.read 0x24 4)) = .next t ∧
      step (t.withEvent (.read 0x14 4)) = .next u ∧ u.rdata.toNat + 1 = s.dout.length)

/-- Rule R27: a push appends the low eight bits of the written word, or drops the byte and sets `OVF` when the
buffer is full; nothing else changes, in any `STATE`; a read of a push register returns 0; a byte dropped makes
the next command (but `CLR`, rule R30) fail with `BufferOverflow`. -/
def Obligations.PushAppendsOrSetsOverflow : Prop :=
  ∀ (s : State) (v : Word),
    step (s.withEvent (.write 0x18 4 v)) = .next
      (if s.key.length < s.cfg.keyMax then { s with key := s.key ++ [v.extractLsb' 0 8] }
       else { s with ovf := true }) ∧
    step (s.withEvent (.write 0x1C 4 v)) = .next
      (if s.iv.length < s.cfg.ivMax then { s with iv := s.iv ++ [v.extractLsb' 0 8] }
       else { s with ovf := true }) ∧
    step (s.withEvent (.write 0x20 4 v)) = .next
      (if s.din.length < s.cfg.inMax then { s with din := s.din ++ [v.extractLsb' 0 8] }
       else { s with ovf := true }) ∧
    step (s.withEvent (.read 0x18 4)) = .next { s with rdata := 0#32 } ∧
    step (s.withEvent (.read 0x1C 4)) = .next { s with rdata := 0#32 } ∧
    step (s.withEvent (.read 0x20 4)) = .next { s with rdata := 0#32 } ∧
    (∀ i, i ≠ .clr → exec i { s with ovf := true } = .next (s.settle .error (some .bufferOverflow) []))

/-- Rule R28: `DOUTPOP` removes and returns the first byte of `DOUT`, zero-extended, or returns 0 and sets
`UDF` when there is none, as in `IDLE` and `ERROR`; a write is ignored. -/
def Obligations.PopReturnsFirstByteOrSetsUnderflow : Prop :=
  ∀ s : State,
    (∀ b rest, s.dout = b :: rest →
      step (s.withEvent (.read 0x24 4)) = .next { s with dout := rest, rdata := b.setWidth 32 }) ∧
    (s.dout = [] → step (s.withEvent (.read 0x24 4)) = .next { s with udf := true, rdata := 0#32 }) ∧
    (s.Inv → s.phase ≠ .done →
      step (s.withEvent (.read 0x24 4)) = .next { s with udf := true, rdata := 0#32 }) ∧
    (∀ v, step (s.withEvent (.write 0x24 4 v)) = .next s)

/-- Rule R29: reserved offsets read as 0 and ignore writes; read-only registers ignore writes and write-only
registers read as 0; no access to the block fails. -/
def Obligations.ReservedOffsetsHaveNoEffect : Prop :=
  ∀ s : State,
    (∀ off ∈ [0x28, 0x2C, 0x30, 0x34, 0x38, 0x3C],
      step (s.withEvent (.read off 4)) = .next { s with rdata := 0#32 } ∧
      ∀ v, step (s.withEvent (.write off 4 v)) = .next s) ∧
    (∀ off ∈ [0x04, 0x08, 0x0C, 0x10, 0x14, 0x24], ∀ v, step (s.withEvent (.write off 4 v)) = .next s) ∧
    (∀ off ∈ [0x00, 0x18, 0x1C, 0x20], step (s.withEvent (.read off 4)) = .next { s with rdata := 0#32 }) ∧
    (∀ off v, off % 4 = 0 → off < 64 →
      (∃ t, step (s.withEvent (.read off 4)) = .next t) ∧ ∃ t, step (s.withEvent (.write off 4 v)) = .next t)

/-- Rule R30: what sets and clears `OVF` and `UDF`, over every event; `OVF` makes every command but `CLR` fail
with `BufferOverflow`, and no command depends on `UDF`; both are 0 after reset. -/
def Obligations.StickyFlagsFollowTheirTable : Prop :=
  (∀ (s t : State) (e : Event), step (s.withEvent e) = .next t →
    (t.ovf = match e with
      | .reset => false
      | .read _ _ => s.ovf
      | .write off _ _ =>
        if off = 0x00 then false
        else if off = 0x18 then s.ovf || decide (s.cfg.keyMax ≤ s.key.length)
        else if off = 0x1C then s.ovf || decide (s.cfg.ivMax ≤ s.iv.length)
        else if off = 0x20 then s.ovf || decide (s.cfg.inMax ≤ s.din.length)
        else s.ovf) ∧
    (t.udf = match e with
      | .reset => false
      | .read off _ => if off = 0x24 then s.udf || s.dout.isEmpty else s.udf
      | .write off _ _ => if off = 0x00 then false else s.udf)) ∧
  (∀ (s : State) (i : Instr), s.ovf = true → i ≠ .clr →
    exec i s = .next (s.settle .error (some .bufferOverflow) [])) ∧
  (∀ (s : State) (i : Instr) (u : Bool), exec i { s with udf := u } = exec i s) ∧
  (∀ c : Config, (State.resetWith c).ovf = false ∧ (State.resetWith c).udf = false)

/-- Rule R31: the transitions of `STATE` and `ERR`, whatever they and an unread result were before; no event but
a `CMD` write and reset changes them. -/
def Obligations.StateTransitions : Prop :=
  (∀ (s : State) (w : Word), ∃ t, step (s.withEvent (.write 0x00 4 w)) = .next t ∧
    (t.phase, t.err) =
      match decode w with
      | .error _ => (.error, some .illegalCommand)
      | .ok .clr => (.idle, none)
      | .ok i =>
        if s.ovf then (.error, some .bufferOverflow)
        else match commandFunction i s.nextDraw s.key s.iv s.din with
          | .error k => (.error, some k)
          | .ok v => if v.length ≤ s.cfg.outMax then (.done, none) else (.error, some .bufferOverflow)) ∧
  (∀ (s : State) (i : Instr) (p : Phase) (e : Option ErrKind) (d : Bytes),
    exec i { s with phase := p, err := e, dout := d } = exec i s) ∧
  (∀ s t : State, step (s.withEvent .reset) = .next t → t.phase = .idle ∧ t.err = none) ∧
  (∀ (s t : State) (off size : Nat) (v : Word), off ≠ 0x00 → step (s.withEvent (.write off size v)) = .next t →
    t.phase = s.phase ∧ t.err = s.err) ∧
  (∀ (s t : State) (off size : Nat), step (s.withEvent (.read off size)) = .next t →
    t.phase = s.phase ∧ t.err = s.err)

/-- Rule R40: what reset leaves, for every instance, whatever its capacities; `STATUS` and the length registers
read as 0. The reset event (rule R340) leaves the same in any state. -/
def Obligations.ResetValues : Prop :=
  (∀ c : Config, ∀ s ∈ [State.resetWith c],
    s.key = [] ∧ s.iv = [] ∧ s.din = [] ∧ s.dout = [] ∧ s.phase = .idle ∧ s.err = none ∧
    s.ovf = false ∧ s.udf = false ∧ s.statusWord = 0x00000000#32 ∧
    ∀ off ∈ [0x04, 0x08, 0x0C, 0x10, 0x14], ∃ t, step (s.withEvent (.read off 4)) = .next t ∧ t.rdata = 0#32) ∧
  (∃ c, State.reset = State.resetWith c) ∧
  (∀ s : State, ∃ t, step (s.withEvent .reset) = .next t ∧
    t.key = [] ∧ t.iv = [] ∧ t.din = [] ∧ t.dout = [] ∧ t.phase = .idle ∧ t.err = none ∧
    t.ovf = false ∧ t.udf = false ∧ t.statusWord = 0x00000000#32)

/-! ### 20_memory.md: accesses -/

/-- Rule R51: accesses of another width, unaligned or (I16) outside the block are refused by name; every
aligned 32-bit access of the block is performed. -/
def Obligations.OnlyAlignedWordAccessesArePerformed : Prop :=
  ∀ (s : State) (off size : Nat) (v : Word), ∀ e ∈ [Event.read off size, Event.write off size v],
    (size ≠ 4 → step (s.withEvent e) = .refused .accessNotWord) ∧
    (size = 4 → off % 4 ≠ 0 → step (s.withEvent e) = .refused .accessMisaligned) ∧
    (size = 4 → off % 4 = 0 → 64 ≤ off → step (s.withEvent e) = .refused .accessOutsideBlock) ∧
    (size = 4 → off % 4 = 0 → off < 64 → ∃ t, step (s.withEvent e) = .next t)

/-- Rule R55, the frame of every access: a read changes nothing but the value handed to the host, and for
`DOUTPOP` the front of `DOUT` or `UDF`; a push changes only its buffer's end or `OVF`; every other write but a
command changes nothing. A command leaves the model's own fields as they are but for the count of the draws of
`ENC` with ISO10126, at most 7 (logs 1, 2, 3; rule R90's frame says the rest). -/
def Obligations.AccessFrame : Prop :=
  ∀ (s t : State) (off size : Nat) (v : Word),
    (step (s.withEvent (.read off size)) = .next t → off ≠ 0x24 → t = { s with rdata := t.rdata }) ∧
    (step (s.withEvent (.read off size)) = .next t → off = 0x24 →
      t = { s with dout := s.dout.tail, udf := s.udf || s.dout.isEmpty, rdata := t.rdata }) ∧
    (step (s.withEvent (.write off size v)) = .next t → off = 0x18 →
      t = { s with key := t.key, ovf := t.ovf } ∧ (t.key = s.key ∨ ∃ b, t.key = s.key ++ [b])) ∧
    (step (s.withEvent (.write off size v)) = .next t → off = 0x1C →
      t = { s with iv := t.iv, ovf := t.ovf } ∧ (t.iv = s.iv ∨ ∃ b, t.iv = s.iv ++ [b])) ∧
    (step (s.withEvent (.write off size v)) = .next t → off = 0x20 →
      t = { s with din := t.din, ovf := t.ovf } ∧ (t.din = s.din ∨ ∃ b, t.din = s.din ++ [b])) ∧
    (step (s.withEvent (.write off size v)) = .next t → off ∉ [0x00, 0x18, 0x1C, 0x20] → t = s) ∧
    (step (s.withEvent (.write off size v)) = .next t → off = 0x00 →
      t.cfg = s.cfg ∧ t.bus = s.bus ∧ t.rdata = s.rdata ∧ s.draws ≤ t.draws ∧ t.draws ≤ s.draws + 7 ∧
      ((∀ mc hash ksize text, decode v ≠ .ok (.enc mc 4#3 hash ksize text)) → t.draws = s.draws))

/-- Rule R62 items 3 and 4, rule R60 item 1: bytes pushed to `DIN` lie there in the order of the writes, and
bytes popped from `DOUT` come out in index order, however many there are; pushes to different buffers
commute, and a push commutes with a pop (70 rule R351). -/
def Obligations.BuffersKeepByteOrder : Prop :=
  (∀ (s : State) (bs : Bytes), s.din.length + bs.length ≤ s.cfg.inMax →
    afterEvents s (bs.map fun b => .write 0x20 4 (b.setWidth 32)) = some { s with din := s.din ++ bs }) ∧
  (∀ (s : State) (n : Nat) (h : n < s.dout.length),
    afterEvents s (List.replicate (n + 1) (.read 0x24 4)) =
      some { s with dout := s.dout.drop (n + 1), rdata := (s.dout[n]).setWidth 32 }) ∧
  (∀ (s : State) (v w : Word),
    (∀ a ∈ [0x18, 0x1C, 0x20], ∀ b ∈ [0x18, 0x1C, 0x20], a ≠ b →
      afterEvents s [.write a 4 v, .write b 4 w] = afterEvents s [.write b 4 w, .write a 4 v]) ∧
    (∀ a ∈ [0x18, 0x1C, 0x20],
      afterEvents s [.write a 4 v, .read 0x24 4] = afterEvents s [.read 0x24 4, .write a 4 v]))

/-! ### 30_encoding.md: the command word and the frame -/

/-- Decode and encode agree: every command, with every operand at every value, decodes from its own word. -/
def Obligations.DecodeOfEncodeIsTheCommand : Prop :=
  ∀ i : Instr, i.wellFormed = true → decode (encode i) = .ok i

/-- The other direction: a word that decodes to a command is that command's word, so decoding drops no bit. -/
def Obligations.DecodedWordIsTheEncoding : Prop :=
  ∀ (w : Word) (i : Instr), decode w = .ok i → encode i = w ∧ i.wellFormed = true

/-- Rule R84: a word selects a row of the opcode table exactly when it decodes to that row's command, and the
rows do not overlap. -/
def Obligations.OpcodeRowsSelectTheirCommands : Prop :=
  (∀ (w : Word) (n : Nat), n < 8 → (rowSelects n w = true ↔ ∃ i, decode w = .ok i ∧ i.opcode = n)) ∧
  (∀ (w : Word) (n m : Nat), rowSelects n w = true → rowSelects m w = true → n = m)

/-- Rule R86: the illegal words are those with `OP` 8 to 15 or a must-be-zero bit set (rule R85), and each ends
as `IllegalCommand` with no function executed. -/
def Obligations.IllegalWordsAreExactly : Prop :=
  (∀ w : Word, (∃ x, decode w = .error x) ↔
    (w.extractLsb' 13 19 ≠ 0#19 ∨ 8 ≤ (w.extractLsb' 0 4).toNat ∨
     ((w.extractLsb' 0 4).toNat ∈ [0, 1, 2, 6, 7] ∧ w.extractLsb' 4 9 ≠ 0#9) ∨
     ((w.extractLsb' 0 4).toNat = 3 ∧ (w.extractLsb' 4 6 ≠ 0#6 ∨ w.getLsbD 12 = true)))) ∧
  (∀ (s : State) (w : Word) (x : Illegal), decode w = .error x →
    step (s.withEvent (.write 0x00 4 w)) = .next (s.settle .error (some .illegalCommand) []))

/-- A few words written out from the encoding of rules R81, R82, R84 and the command they stand for. -/
def Obligations.WordsOfTheEncodingTableDecode : Prop :=
  decode 0x00000000#32 = .ok .clr ∧
  decode 0x00000001#32 = .ok .b64e ∧
  decode 0x00000002#32 = .ok .b64d ∧
  decode 0x00000C03#32 = .ok (.kdf true true) ∧
  decode 0x00000104#32 = .ok (.enc 0#3 2#3 false false false) ∧
  decode 0x00001D15#32 = .ok (.dec 1#3 2#3 true true true) ∧
  decode 0x00000006#32 = .ok .pwenc ∧
  decode 0x00000007#32 = .ok .pwdec ∧
  decode 0x00001FFF#32 = .error .reservedOp ∧
  decode 0x00000013#32 = .error .unusedField ∧
  decode 0x80000004#32 = .error .reservedBits

/-- Rules R87 and R244: reserved `MODE` or `PAD` codes, and CTS with a padding, are legal words of `ENC` and
`DEC` that fail with `UnsupportedConfiguration`; in every other command a non-zero `MODE` or `PAD` is illegal. -/
def Obligations.ReservedConfigurationIsUnsupported : Prop :=
  (∀ (s : State) (mc pc : BitVec 3) (hash ksize text : Bool), s.ovf = false →
    (5 ≤ mc.toNat ∨ 5 ≤ pc.toNat ∨ (mc = 4#3 ∧ pc ≠ 0#3)) →
    step (s.withEvent (.write 0x00 4 (encode (.enc mc pc hash ksize text)))) =
      .next (s.settle .error (some .unsupportedConfiguration) []) ∧
    step (s.withEvent (.write 0x00 4 (encode (.dec mc pc hash ksize text)))) =
      .next (s.settle .error (some .unsupportedConfiguration) [])) ∧
  (∀ w : Word, w.extractLsb' 0 4 ≠ 4#4 → w.extractLsb' 0 4 ≠ 5#4 → w.extractLsb' 4 6 ≠ 0#6 →
    ∃ x, decode w = .error x)

/-- Rule R90: the command frame, around whatever the command's own function gives. `DOUT`, `STATE`, `ERR` hold
the outcome, no operand survives, and both flags are cleared. -/
def Obligations.CommandFrame : Prop :=
  ∀ (s : State) (w : Word), ∃ t, step (s.withEvent (.write 0x00 4 w)) = .next t ∧
    (match (match decode w with
        | .error _ => (.error .illegalCommand : Result Bytes)
        | .ok .clr => .ok []
        | .ok i =>
          if s.ovf then .error .bufferOverflow
          else match commandFunction i s.nextDraw s.key s.iv s.din with
            | .error k => .error k
            | .ok v => if v.length > s.cfg.outMax then .error .bufferOverflow else .ok v) with
      | .ok v => t.dout = v ∧ t.err = none ∧ t.phase = (if decode w = .ok .clr then .idle else .done)
      | .error k => t.dout = [] ∧ t.err = some k ∧ t.phase = .error) ∧
    t.key = [] ∧ t.iv = [] ∧ t.din = [] ∧ t.ovf = false ∧ t.udf = false

/-- Rule R91: a buffer a command does not read is ignored, whatever it holds; for the chaining modes of `ENC`
and `DEC` the IV is read, so only ECB stands here. Rule R85's exception: with a raw key `KSIZE` is ignored. -/
def Obligations.UnreadBuffersAreIgnored : Prop :=
  ∀ (s : State) (k v d : Bytes) (hash ksize text : Bool) (mc pc : BitVec 3),
    exec .clr { s with key := k, iv := v, din := d } = exec .clr s ∧
    exec .b64e { s with key := k, iv := v } = exec .b64e s ∧
    exec .b64d { s with key := k, iv := v } = exec .b64d s ∧
    exec (.kdf hash ksize) { s with iv := v, din := d } = exec (.kdf hash ksize) s ∧
    exec (.enc 0#3 pc hash ksize text) { s with iv := v } = exec (.enc 0#3 pc hash ksize text) s ∧
    exec (.dec 0#3 pc hash ksize text) { s with iv := v } = exec (.dec 0#3 pc hash ksize text) s ∧
    exec .pwenc { s with iv := v } = exec .pwenc s ∧
    exec .pwdec { s with iv := v } = exec .pwdec s ∧
    exec (.enc mc pc false ksize text) s = exec (.enc mc pc false false text) s ∧
    exec (.dec mc pc false ksize text) s = exec (.dec mc pc false false text) s

/-! ### 40_codec.md -/

/-- Rule R111: the characters of the 64 values; `b64val` is the inverse, with no value on every other byte, the
pad character among them. -/
def Obligations.AlphabetIsInvertible : Prop :=
  (∀ i : BitVec 6, (b64chr i).toNat =
    if i.toNat ≤ 25 then 0x41 + i.toNat
    else if i.toNat ≤ 51 then 0x61 + (i.toNat - 26)
    else if i.toNat ≤ 61 then 0x30 + (i.toNat - 52)
    else if i.toNat = 62 then 0x2B else 0x2F) ∧
  (∀ i : BitVec 6, b64val (b64chr i) = some i) ∧
  (∀ (c : Byte) (i : BitVec 6), b64val c = some i → c = b64chr i) ∧
  b64val 0x3D#8 = none

/-- Rule R112: every group of `b64enc(s)` by its index, and the length. -/
def Obligations.EncodedGroupsAreIndexed : Prop :=
  ∀ s : Bytes,
    (b64enc s).length = 4 * ((s.length + 2) / 3) ∧
    ∀ g, g < (s.length + 2) / 3 → ∀ n, n = min 3 (s.length - 3 * g) →
      ∀ v : BitVec 24, v = s.getD (3 * g) 0#8 ++ s.getD (3 * g + 1) 0#8 ++ s.getD (3 * g + 2) 0#8 →
      sub (b64enc s) (4 * g) 4 =
        [b64chr (v.extractLsb' 18 6), b64chr (v.extractLsb' 12 6),
         if 2 ≤ n then b64chr (v.extractLsb' 6 6) else 0x3D#8,
         if n = 3 then b64chr (v.extractLsb' 0 6) else 0x3D#8]

/-- Rule R116: decoding inverts encoding, and only outputs of `b64enc` are accepted. -/
def Obligations.CodecRoundTripAndInjectivity : Prop :=
  (∀ b : Bytes, b64dec (b64enc b) = .ok b) ∧
  (∀ t b : Bytes, b64dec t = .ok b → t = b64enc b)

/-- Rule R118: `B64E` completes with the text of `DIN`; `BufferOverflow` is its only error. -/
def Obligations.B64eCompletes : Prop :=
  ∀ s : State,
    (s.ovf = false → 4 * ((s.din.length + 2) / 3) ≤ s.cfg.outMax →
      exec .b64e s = .next (s.settle .done none (b64enc s.din))) ∧
    (s.ovf = true ∨ s.cfg.outMax < 4 * ((s.din.length + 2) / 3) →
      exec .b64e s = .next (s.settle .error (some .bufferOverflow) [])) ∧
    (∀ w : Word, (w.extractLsb' 0 4).toNat = 1 → w ≠ 1#32 → ∃ x, decode w = .error x)

/-- Rule R119: `B64D` completes with the bytes whose text `DIN` is, and ends with `MalformedEncoding` when
`DIN` is no text of any bytes. -/
def Obligations.B64dCompletes : Prop :=
  ∀ s : State,
    (∀ b, s.ovf = false → s.din = b64enc b → b.length ≤ s.cfg.outMax →
      exec .b64d s = .next (s.settle .done none b)) ∧
    (s.ovf = false → (∀ b, s.din ≠ b64enc b) →
      exec .b64d s = .next (s.settle .error (some .malformedEncoding) [])) ∧
    (∀ b, s.ovf = true ∨ (s.din = b64enc b ∧ s.cfg.outMax < b.length) →
      exec .b64d s = .next (s.settle .error (some .bufferOverflow) [])) ∧
    (∀ w : Word, (w.extractLsb' 0 4).toNat = 2 → w ≠ 2#32 → ∃ x, decode w = .error x)

/-! ### 41_key_derivation.md -/

/-- Rule R131: the padded message of `H128`; `z < 64` with `len(M)` a multiple of 64 makes `z` the least. -/
def Obligations.HashMessagePadding : Prop :=
  ∀ m : Bytes, ∃ z len, z < 64 ∧ hashPad m = m ++ [0x80#8] ++ rep 0#8 z ++ len ∧
    len.length = 8 ∧ (∀ i (h : i < len.length), (len[i]).toNat = (8 * m.length % 2 ^ 64) / 256 ^ i % 256) ∧
    (hashPad m).length % 64 = 0 ∧ 64 ≤ (hashPad m).length

/-- Rules R130 and R145: the hash gives 16 bytes, and `fit` the 8 or 24 bytes of the target length. -/
def Obligations.DerivedKeyHasTargetLength : Prop :=
  ∀ (m : Bytes) (ksize : Bool),
    (h128 m).length = 16 ∧ (fit (h128 m) ksize).length = tlen ksize ∧
    fit (h128 m) false = (h128 m).take 8 ∧ fit (h128 m) true = h128 m ++ (h128 m).take 8

/-- Rule R147 with rule R146: `KDF` completes with the derived or the raw key, and its errors in their order; its
word is `0x3 | HASH << 10 | KSIZE << 11`. -/
def Obligations.KdfCompletes : Prop :=
  (∀ hash ksize : Bool, decode (0x3#32 ||| (BitVec.ofBool hash).setWidth 32 <<< 10 |||
    (BitVec.ofBool ksize).setWidth 32 <<< 11) = .ok (.kdf hash ksize)) ∧
  (∀ (s : State) (hash ksize : Bool), s.ovf = true →
    exec (.kdf hash ksize) s = .next (s.settle .error (some .bufferOverflow) [])) ∧
  (∀ w : Word, (w.extractLsb' 0 4).toNat = 3 → w.extractLsb' 4 6 ≠ 0#6 ∨ w.extractLsb' 12 20 ≠ 0#20 →
    ∃ x, decode w = .error x) ∧
  ∀ (s : State) (ksize : Bool), s.ovf = false →
    (s.key ≠ [] → tlen ksize ≤ s.cfg.outMax →
      exec (.kdf true ksize) s = .next (s.settle .done none (fit (h128 s.key) ksize))) ∧
    (s.key.length = tlen ksize → tlen ksize ≤ s.cfg.outMax →
      exec (.kdf false ksize) s = .next (s.settle .done none s.key)) ∧
    (s.key = [] → exec (.kdf true ksize) s = .next (s.settle .error (some .nullOrEmptyInput) [])) ∧
    (s.key.length ≠ tlen ksize →
      exec (.kdf false ksize) s = .next (s.settle .error (some .invalidKeyLength) [])) ∧
    (s.key ≠ [] → s.cfg.outMax < tlen ksize →
      exec (.kdf true ksize) s = .next (s.settle .error (some .bufferOverflow) [])) ∧
    (s.key.length = tlen ksize → s.cfg.outMax < tlen ksize →
      exec (.kdf false ksize) s = .next (s.settle .error (some .bufferOverflow) []))

/-! ### 42_des_core.md -/

/-- Rule R170: DES decryption is encryption with the round keys reversed, and each inverts the other. -/
def Obligations.DesDecryptionInvertsEncryption : Prop :=
  (∀ k y : Bytes, desDec k y =
    blockOfBits (desBits (keySchedule (bitsOfBlock k)).reverse (bitsOfBlock y))) ∧
  (∀ k x : Bytes, x.length = 8 → desDec k (desEnc k x) = x ∧ desEnc k (desDec k x) = x)

/-- Rule R171: triple DES is encrypt-decrypt-encrypt under `K1`, `K2`, `K3`; decryption inverts it; with equal
keys it is DES; with a derived key `K3 = K1`. -/
def Obligations.TripleDesIsEncryptDecryptEncrypt : Prop :=
  (∀ k x : Bytes,
    tdeaEnc k x = desEnc (sub k 16 8) (desDec (sub k 8 8) (desEnc (sub k 0 8) x)) ∧
    tdeaDec k x = desDec (sub k 0 8) (desEnc (sub k 8 8) (desDec (sub k 16 8) x))) ∧
  (∀ k x : Bytes, k.length = 24 → x.length = 8 → tdeaDec k (tdeaEnc k x) = x) ∧
  (∀ j x : Bytes, j.length = 8 → x.length = 8 → tdeaEnc (j ++ j ++ j) x = desEnc j x) ∧
  (∀ h : Bytes, h.length = 16 → sub (fit h true) 16 8 = sub (fit h true) 0 8)

/-- Rule R172: the least significant bit of each key byte takes no part, and no key value is refused. -/
def Obligations.KeyParityBitsTakeNoPart : Prop :=
  (∀ k k' x : Bytes, k.length = 8 ∨ k.length = 24 → k'.length = k.length →
    (∀ i : Nat, k.getD i 0#8 >>> 1 = k'.getD i 0#8 >>> 1) →
    blockEnc k x = blockEnc k' x ∧ blockDec k x = blockDec k' x) ∧
  (∀ k : Bytes, k.length = 8 ∨ k.length = 24 → keyCheck false k = .ok ())

/-- Rule R173: the cipher is selected by the length of the key, and a raw key of any other length ends `ENC`
and `DEC` with `InvalidKeyLength`. -/
def Obligations.CipherSelectedByKeyLength : Prop :=
  (∀ k x : Bytes, k.length = 8 → blockEnc k x = desEnc k x ∧ blockDec k x = desDec k x) ∧
  (∀ k x : Bytes, k.length = 24 →
    blockEnc k x = desEnc (sub k 16 8) (desDec (sub k 8 8) (desEnc (sub k 0 8) x)) ∧
    blockDec k x = desDec (sub k 0 8) (desEnc (sub k 8 8) (desDec (sub k 16 8) x))) ∧
  (∀ (s : State) (mc pc : BitVec 3) (m : Mode) (p : Padding) (ksize text : Bool),
    s.ovf = false → modeOf mc = some m → paddingOf pc = some p → Supported m p →
    s.key.length ≠ 8 → s.key.length ≠ 24 →
    exec (.enc mc pc false ksize text) s = .next (s.settle .error (some .invalidKeyLength) []) ∧
    exec (.dec mc pc false ksize text) s = .next (s.settle .error (some .invalidKeyLength) []))

/-! ### 43_padding.md -/

/-- Rule R191: what each scheme adds, and the length and content of the padded plaintext, for all draws. -/
def Obligations.PaddingLayouts : Prop :=
  ∀ (draw : Nat → Byte) (p : Bytes) (r n : Nat), r = p.length % 8 → n = 8 - r →
    pad .none draw p = p ∧
    pad .zeros draw p = p ++ rep 0x00#8 ((8 - r) % 8) ∧
    pad .pkcs7 draw p = p ++ rep (byteOf n) n ∧
    pad .ansix923 draw p = p ++ rep 0x00#8 (n - 1) ++ [byteOf n] ∧
    pad .iso10126 draw p = p ++ (List.range (n - 1)).map draw ++ [byteOf n] ∧
    (∀ scheme, (scheme = .none → r = 0) →
      (pad scheme draw p).length % 8 = 0 ∧ (pad scheme draw p).take p.length = p) ∧
    (pad .zeros draw p).length = 8 * ((p.length + 7) / 8) ∧
    (∀ scheme ∈ [Padding.pkcs7, .ansix923, .iso10126],
      (pad scheme draw p).length = 8 * (p.length / 8 + 1) ∧ (pad scheme draw p).length ≤ p.length + 8)

/-- Rule R197: what `unpad` accepts under each scheme, and what it gives. -/
def Obligations.UnpadAcceptsExactlyValidPadding : Prop :=
  ∀ x : Bytes, x ≠ [] → x.length % 8 = 0 →
    unpad .none x = .ok x ∧
    (∃ v n, x = v ++ rep 0x00#8 n ∧ v.getLast? ≠ some 0x00#8 ∧ unpad .zeros x = .ok v) ∧
    (∀ v, unpad .pkcs7 x = .ok v ↔ ∃ n, 1 ≤ n ∧ n ≤ 8 ∧ x = v ++ rep (byteOf n) n) ∧
    (∀ v, unpad .ansix923 x = .ok v ↔ ∃ n, 1 ≤ n ∧ n ≤ 8 ∧ x = v ++ rep 0x00#8 (n - 1) ++ [byteOf n]) ∧
    (∀ v, unpad .iso10126 x = .ok v ↔
      ∃ n filler, 1 ≤ n ∧ n ≤ 8 ∧ filler.length = n - 1 ∧ x = v ++ filler ++ [byteOf n]) ∧
    (∀ scheme k, unpad scheme x = .error k → k = .paddingValidationFailed)

/-- Rule R198: the selector's round trip, for every plaintext and all draws; under Zeros the trailing zero
bytes are lost. -/
def Obligations.UnpadInvertsPad : Prop :=
  ∀ (draw : Nat → Byte) (p : Bytes),
    (p.length % 8 = 0 → unpad .none (pad .none draw p) = .ok p) ∧
    unpad .pkcs7 (pad .pkcs7 draw p) = .ok p ∧
    unpad .ansix923 (pad .ansix923 draw p) = .ok p ∧
    unpad .iso10126 (pad .iso10126 draw p) = .ok p ∧
    (p = [] ∨ p.getLast? ≠ some 0x00#8 → unpad .zeros (pad .zeros draw p) = .ok p) ∧
    (∃ v n, p = v ++ rep 0x00#8 n ∧ v.getLast? ≠ some 0x00#8 ∧ unpad .zeros (pad .zeros draw p) = .ok v)

/-! ### 44_modes.md -/

/-- Rule R211: the IV rule, as `ENC` and `DEC` apply it before any byte is transformed. -/
def Obligations.IvRule : Prop :=
  (∀ iv, ivCheck .ecb iv = .ok ()) ∧
  (∀ m iv, m ≠ Mode.ecb → ivCheck m iv = if iv.length = 8 then .ok () else .error .invalidIvLength) ∧
  (∀ (s : State) (mc pc : BitVec 3) (m : Mode) (p : Padding) (hash ksize text : Bool),
    s.ovf = false → modeOf mc = some m → paddingOf pc = some p → Supported m p → KeyOk hash s.key →
    m ≠ .ecb → s.iv.length ≠ 8 →
    exec (.enc mc pc hash ksize text) s = .next (s.settle .error (some .invalidIvLength) []) ∧
    exec (.dec mc pc hash ksize text) s = .next (s.settle .error (some .invalidIvLength) []))

/-- Rule R213: ECB block by block. -/
def Obligations.EcbBlocks : Prop :=
  ∀ (k iv x : Bytes) (j : Nat), x.length % 8 = 0 → j < x.length / 8 →
    sub (modeEnc .ecb k iv x) (8 * j) 8 = blockEnc k (sub x (8 * j) 8) ∧
    sub (modeDec .ecb k iv x) (8 * j) 8 = blockDec k (sub x (8 * j) 8)

/-- Rule R214: CBC block by block, with `y_0 = IV`. -/
def Obligations.CbcBlocks : Prop :=
  ∀ (k iv x : Bytes) (j : Nat), iv.length = 8 → x.length % 8 = 0 → j < x.length / 8 →
    sub (modeEnc .cbc k iv x) (8 * j) 8 = blockEnc k (xorBytes (sub x (8 * j) 8)
      (if j = 0 then iv else sub (modeEnc .cbc k iv x) (8 * (j - 1)) 8)) ∧
    sub (modeDec .cbc k iv x) (8 * j) 8 = xorBytes (blockDec k (sub x (8 * j) 8))
      (if j = 0 then iv else sub x (8 * (j - 1)) 8)

/-- Rule R215: CFB with a segment of one block, block by block, with `y_0 = IV`. -/
def Obligations.CfbBlocks : Prop :=
  ∀ (k iv x : Bytes) (j : Nat), iv.length = 8 → x.length % 8 = 0 → j < x.length / 8 →
    sub (modeEnc .cfb k iv x) (8 * j) 8 = xorBytes (sub x (8 * j) 8) (blockEnc k
      (if j = 0 then iv else sub (modeEnc .cfb k iv x) (8 * (j - 1)) 8)) ∧
    sub (modeDec .cfb k iv x) (8 * j) 8 = xorBytes (sub x (8 * j) 8) (blockEnc k
      (if j = 0 then iv else sub x (8 * (j - 1)) 8))

/-- Rule R217: OFB block by block; the key stream `o_j` is `BlockEnc` iterated on the IV, and both directions
are one function. -/
def Obligations.OfbBlocks : Prop :=
  ∀ (k iv x : Bytes) (j : Nat), x.length % 8 = 0 → j < x.length / 8 →
    sub (modeEnc .ofb k iv x) (8 * j) 8 = xorBytes (sub x (8 * j) 8) ((blockEnc k)^[j + 1] iv) ∧
    modeDec .ofb k iv x = modeEnc .ofb k iv x

/-- Rule R218: CTS encryption is CBC on aligned input, and otherwise CBC of the zero-filled input with the
last block but one cut to `d` bytes; the output has the input's length. -/
def Obligations.CtsEncryption : Prop :=
  ∀ (k iv x : Bytes) (d m : Nat), iv.length = 8 → 8 ≤ x.length → d = x.length % 8 →
    m = (x.length + 7) / 8 →
    (modeEnc .cts k iv x).length = x.length ∧
    (d = 0 → modeEnc .cts k iv x = modeEnc .cbc k iv x) ∧
    (d ≠ 0 → ∀ y, y = modeEnc .cbc k iv (x ++ rep 0x00#8 (8 - d)) →
      2 ≤ m ∧ y.length = 8 * m ∧
      modeEnc .cts k iv x =
        y.take (8 * (m - 2)) ++ (sub y (8 * (m - 2)) 8).take d ++ sub y (8 * (m - 1)) 8) ∧
    (∀ n, n < 8 → dataCheck .enc .cts .none n = .error .unsupportedConfiguration)

/-- Rule R219: CTS decryption is CBC on aligned input, and otherwise the rule's equations; the output has the
input's length, and every text of at least eight bytes decrypts to something. -/
def Obligations.CtsDecryption : Prop :=
  ∀ (k iv y : Bytes) (d m : Nat), iv.length = 8 → 8 ≤ y.length → d = y.length % 8 → m = (y.length + 7) / 8 →
    (modeDec .cts k iv y).length = y.length ∧
    (d = 0 → modeDec .cts k iv y = modeDec .cbc k iv y) ∧
    (d ≠ 0 → ∀ cpen z, cpen = sub y (8 * (m - 2)) d → z = blockDec k (sub y (8 * (m - 2) + d) 8) →
      2 ≤ m ∧
      (modeDec .cts k iv y).take (8 * (m - 2)) = modeDec .cbc k iv (y.take (8 * (m - 2))) ∧
      sub (modeDec .cts k iv y) (8 * (m - 2)) 8 = xorBytes (blockDec k (cpen ++ z.drop d))
        (if 2 < m then sub y (8 * (m - 3)) 8 else iv) ∧
      (modeDec .cts k iv y).drop (8 * (m - 1)) = xorBytes (z.take d) cpen)

/-- Rule R220: every mode's decryption inverts its encryption on every admissible input, and the output has
the input's length. -/
def Obligations.ModeRoundTrip : Prop :=
  ∀ (m : Mode) (k iv x : Bytes), k.length = 8 ∨ k.length = 24 → (m ≠ .ecb → iv.length = 8) →
    (m ≠ .cts → x.length % 8 = 0) → (m = .cts → 8 ≤ x.length) →
    modeDec m k iv (modeEnc m k iv x) = x ∧ (modeEnc m k iv x).length = x.length

/-! ### 45_cipher_commands.md -/

/-- Rule R245: `ENC` completes, on every supported configuration and admissible operands, with the ciphertext
the rule computes, as text when `TEXT = 1`; its length is the rule's. The draws taken (log 3) are counted. -/
def Obligations.EncCompletes : Prop :=
  ∀ (s : State) (mc pc : BitVec 3) (m : Mode) (p : Padding) (hash ksize text : Bool),
    s.ovf = false → modeOf mc = some m → paddingOf pc = some p → Supported m p → KeyOk hash s.key →
    IvOk m s.iv → EncLengthOk m p s.din.length → encLength p text s.din.length ≤ s.cfg.outMax →
    ∀ y, y = modeEnc m (effKey hash ksize s.key) s.iv (pad p s.nextDraw s.din) →
    exec (.enc mc pc hash ksize text) s =
      .next ((s.advanceDraws (padDraws p s.din.length)).settle .done none (if text then b64enc y else y)) ∧
    (if text then b64enc y else y).length = encLength p text s.din.length

/-- Rule R245, the errors of `ENC` in the order they are tested: the first that applies is `ERR`, none else. -/
def Obligations.EncErrorsInOrder : Prop :=
  ∀ (s : State) (mc pc : BitVec 3) (hash ksize text : Bool),
    ∃ t, exec (.enc mc pc hash ksize text) s = .next t ∧ t.err =
      if s.ovf = true then some .bufferOverflow
      else if 5 ≤ mc.toNat ∨ 5 ≤ pc.toNat ∨ (mc = 4#3 ∧ pc ≠ 0#3) then some .unsupportedConfiguration
      else if hash = false ∧ s.key.length ≠ 8 ∧ s.key.length ≠ 24 then some .invalidKeyLength
      else if hash = true ∧ s.key.length = 0 then some .nullOrEmptyInput
      else if mc ≠ 0#3 ∧ s.iv.length ≠ 8 then some .invalidIvLength
      else if s.din.length = 0 then some .nullOrEmptyInput
      else if (pc = 0#3 ∧ mc ≠ 4#3 ∧ s.din.length % 8 ≠ 0) ∨ (mc = 4#3 ∧ s.din.length < 8)
        then some .unsupportedConfiguration
      else match paddingOf pc with
        | some p => if s.cfg.outMax < encLength p text s.din.length then some .bufferOverflow else none
        | none => some .unsupportedConfiguration

/-- Rule R246: `DEC` completes, on every supported configuration and admissible operands, with the unpadded
plaintext the rule computes, when its padding is valid. -/
def Obligations.DecCompletes : Prop :=
  ∀ (s : State) (mc pc : BitVec 3) (m : Mode) (p : Padding) (hash ksize text : Bool) (y v : Bytes),
    s.ovf = false → modeOf mc = some m → paddingOf pc = some p → Supported m p → KeyOk hash s.key →
    IvOk m s.iv → s.din = (if text then b64enc y else y) → DecLengthOk m y.length →
    unpad p (modeDec m (effKey hash ksize s.key) s.iv y) = .ok v → v.length ≤ s.cfg.outMax →
    exec (.dec mc pc hash ksize text) s = .next (s.settle .done none v)

/-- Rule R246, the errors of `DEC` in the order they are tested: the first that applies is `ERR`, none else. -/
def Obligations.DecErrorsInOrder : Prop :=
  ∀ (s : State) (mc pc : BitVec 3) (hash ksize text : Bool),
    ∃ t, exec (.dec mc pc hash ksize text) s = .next t ∧ t.err =
      if s.ovf = true then some .bufferOverflow
      else match modeOf mc, paddingOf pc with
        | some m, some p =>
          if m = .cts ∧ p ≠ .none then some .unsupportedConfiguration
          else if hash = false ∧ s.key.length ≠ 8 ∧ s.key.length ≠ 24 then some .invalidKeyLength
          else if hash = true ∧ s.key.length = 0 then some .nullOrEmptyInput
          else if m ≠ .ecb ∧ s.iv.length ≠ 8 then some .invalidIvLength
          else if s.din.length = 0 then some .nullOrEmptyInput
          else match (if text then b64dec s.din else .ok s.din : Result Bytes) with
            | .error _ => some .malformedEncoding
            | .ok y =>
              if (m ≠ .cts ∧ y.length % 8 ≠ 0) ∨ (m = .cts ∧ y.length < 8) then some .unsupportedConfiguration
              else match unpad p (modeDec m (effKey hash ksize s.key) s.iv y) with
                | .error _ => some .paddingValidationFailed
                | .ok v => if s.cfg.outMax < v.length then some .bufferOverflow else none
        | _, _ => some .unsupportedConfiguration

/-- Rule R248, the whole round trip: after an `ENC` that succeeded, for all draws, `DEC` with the same fields,
the same key and IV and the result as data succeeds, if `OUT_MAX` allows, with the plaintext; under Zeros
(`PAD` code 1) with the plaintext less its trailing zero bytes. -/
def Obligations.DecOfEncIsThePlaintext : Prop :=
  ∀ (s t u : State) (mc pc : BitVec 3) (hash ksize text : Bool),
    exec (.enc mc pc hash ksize text) s = .next t → t.phase = .done →
    u.key = s.key → u.iv = s.iv → u.din = t.dout → u.ovf = false →
    ∃ v n, s.din = v ++ rep 0x00#8 n ∧ (pc ≠ 1#3 → n = 0) ∧ (pc = 1#3 → v.getLast? ≠ some 0x00#8) ∧
      (v.length ≤ u.cfg.outMax → exec (.dec mc pc hash ksize text) u = .next (u.settle .done none v))

/-- Rule R241 with rule R147: `ENC` and `DEC` with `HASH = 1` are those with the key `KDF` derives and
`HASH = 0`, in the state whose `KEY` holds it. -/
def Obligations.HashedKeyIsTheDerivedKey : Prop :=
  ∀ (s : State) (mc pc : BitVec 3) (ksize text : Bool) (dk : Bytes),
    deriveKey s.key true ksize = .ok dk →
    exec (.enc mc pc true ksize text) s = exec (.enc mc pc false ksize text) { s with key := dk } ∧
    exec (.dec mc pc true ksize text) s = exec (.dec mc pc false ksize text) { s with key := dk }

/-! ### 46_password.md -/

/-- Rule R261: `PWENC` completes: pass-through on an empty `DIN` or `KEY`, else base64 of DES-ECB of the PKCS7
padded data; and its errors in their order. -/
def Obligations.PwencCompletes : Prop :=
  (∀ s : State, s.ovf = true → exec .pwenc s = .next (s.settle .error (some .bufferOverflow) [])) ∧
  (∀ w : Word, (w.extractLsb' 0 4).toNat = 6 → w ≠ 6#32 → ∃ x, decode w = .error x) ∧
  ∀ (s : State) (draw : Nat → Byte), s.ovf = false →
    (s.din = [] ∨ s.key = [] → s.din.length ≤ s.cfg.outMax →
      exec .pwenc s = .next (s.settle .done none s.din)) ∧
    (s.din = [] ∨ s.key = [] → s.cfg.outMax < s.din.length →
      exec .pwenc s = .next (s.settle .error (some .bufferOverflow) [])) ∧
    (s.din ≠ [] → s.key ≠ [] → s.key.length ≠ 8 →
      exec .pwenc s = .next (s.settle .error (some .invalidKeyLength) [])) ∧
    (s.din ≠ [] → s.key.length = 8 → 4 * ((8 * (s.din.length / 8 + 1) + 2) / 3) ≤ s.cfg.outMax →
      exec .pwenc s = .next (s.settle .done none
        (b64enc (modeEnc .ecb s.key (s.key.take 8) (pad .pkcs7 draw s.din))))) ∧
    (s.din ≠ [] → s.key.length = 8 → s.cfg.outMax < 4 * ((8 * (s.din.length / 8 + 1) + 2) / 3) →
      exec .pwenc s = .next (s.settle .error (some .bufferOverflow) []))

/-- Rule R262: `PWDEC` completes: pass-through on an empty `DIN` or `KEY`, else the unpadded DES-ECB decryption
of the decoded text; and its errors in their order. -/
def Obligations.PwdecCompletes : Prop :=
  ∀ s : State, s.ovf = false →
    (s.din = [] ∨ s.key = [] → s.din.length ≤ s.cfg.outMax →
      exec .pwdec s = .next (s.settle .done none s.din)) ∧
    (s.din = [] ∨ s.key = [] → s.cfg.outMax < s.din.length →
      exec .pwdec s = .next (s.settle .error (some .bufferOverflow) [])) ∧
    (s.din ≠ [] → s.key ≠ [] → s.key.length ≠ 8 →
      exec .pwdec s = .next (s.settle .error (some .invalidKeyLength) [])) ∧
    (s.din ≠ [] → s.key.length = 8 → (∀ y, s.din ≠ b64enc y) →
      exec .pwdec s = .next (s.settle .error (some .malformedEncoding) [])) ∧
    (∀ y, s.din = b64enc y → s.key.length = 8 → y.length % 8 ≠ 0 →
      exec .pwdec s = .next (s.settle .error (some .unsupportedConfiguration) [])) ∧
    (∀ y k, y ≠ [] → s.din = b64enc y → s.key.length = 8 → y.length % 8 = 0 →
      unpad .pkcs7 (modeDec .ecb s.key (s.key.take 8) y) = .error k →
      exec .pwdec s = .next (s.settle .error (some .paddingValidationFailed) [])) ∧
    (∀ y v, y ≠ [] → s.din = b64enc y → s.key.length = 8 → y.length % 8 = 0 →
      unpad .pkcs7 (modeDec .ecb s.key (s.key.take 8) y) = .ok v → v.length ≤ s.cfg.outMax →
      exec .pwdec s = .next (s.settle .done none v)) ∧
    (∀ y v, y ≠ [] → s.din = b64enc y → s.key.length = 8 → y.length % 8 = 0 →
      unpad .pkcs7 (modeDec .ecb s.key (s.key.take 8) y) = .ok v → s.cfg.outMax < v.length →
      exec .pwdec s = .next (s.settle .error (some .bufferOverflow) []))

/-- Rule R260: for a non-empty plaintext and an 8-byte password `PWENC` equals
`ENC mode=ECB, pad=PKCS7, text=1`. -/
def Obligations.PwencEqualsEcbPkcs7Text : Prop :=
  ∀ (s : State) (ksize : Bool), s.din ≠ [] → s.key.length = 8 →
    exec .pwenc s = exec (.enc 0#3 2#3 false ksize true) s

/-- Rule R262's round trip: `PWDEC` on the result of `PWENC` under the same password gives the data back; for an
empty plaintext or password both are the identity. -/
def Obligations.PwdecOfPwencIsTheData : Prop :=
  ∀ s t u : State, exec .pwenc s = .next t → t.phase = .done →
    u.key = s.key → u.din = t.dout → u.ovf = false → s.din.length ≤ u.cfg.outMax →
    exec .pwdec u = .next (u.settle .done none s.din)

/-! ### 47_control.md -/

/-- Rule R275: `CLR` completes in every state, `OVF` set or not, and leaves the reset state of rule R40; its word
is the all-zero word, and any other bit with `OP = 0` is illegal. (`cfg`, `bus`, `rdata`, `draws` are the
model's own fields.) -/
def Obligations.ClrCompletes : Prop :=
  (∀ s : State, exec .clr s = .next
    { State.resetWith s.cfg with bus := s.bus, rdata := s.rdata, draws := s.draws }) ∧
  decode 0x00000000#32 = .ok .clr ∧
  (∀ w : Word, (w.extractLsb' 0 4).toNat = 0 → w ≠ 0#32 → ∃ x, decode w = .error x)

/-! ### 60_exceptions.md, 00_scope.md, 70_reset_and_hazards.md: whole-machine rules -/

/-- Rule R302, the blanks of its table: no command ends with a kind it has no cross for. -/
def Obligations.CommandsEndOnlyWithTheirKinds : Prop :=
  ∀ (i : Instr) (s t : State) (k : ErrKind), exec i s = .next t → t.err = some k → canEndWith i k = true

/-- Rule R310: a command word that ends with a kind leaves `STATE = ERROR` with its code, and nothing of the
operands or of an earlier result: the state depends on the kind alone. -/
def Obligations.ErrorLeavesNoOperand : Prop :=
  ∀ (s t : State) (w : Word) (k : ErrKind), step (s.withEvent (.write 0x00 4 w)) = .next t → t.err = some k →
    t.phase = .error ∧ t.statusWord = 0#24 ++ k.code ++ 2#4 ∧ t.dout = [] ∧ t.key = [] ∧ t.iv = [] ∧ t.din = [] ∧
    t.ovf = false ∧ t.udf = false

/-- Rule R3: a command's outcome does not depend on what an earlier command left: its result, its state, its
flag `UDF`. -/
def Obligations.OutcomeIndependentOfEarlierCommands : Prop :=
  ∀ (i : Instr) (s : State) (d : Bytes) (p : Phase) (e : Option ErrKind) (u : Bool),
    exec i { s with dout := d, phase := p, err := e, udf := u } = exec i s

/-- Rules R311, R196: no error depends on a draw, and only `ENC` with ISO10126 has a result that does; when the
last byte alone completes the block (`n = 1`) there is no draw. -/
def Obligations.OnlyIsoResultsDependOnDraws : Prop :=
  ∀ (i : Instr) (draw draw' : Nat → Byte) (key iv din : Bytes),
    (∀ k, commandFunction i draw key iv din = .error k → commandFunction i draw' key iv din = .error k) ∧
    ((∀ mc hash ksize text, i ≠ .enc mc 4#3 hash ksize text) ∨ din.length % 8 = 7 →
      commandFunction i draw key iv din = commandFunction i draw' key iv din)

/-- The invariant holds at reset, for every legal choice of the capacities, log 4's among them. -/
def Obligations.InvariantHoldsAtReset : Prop :=
  (∀ c : Config, c.wellFormed = true → (State.resetWith c).Inv) ∧ State.reset.Inv

/-- The invariant of `State.Inv` (buffers within their capacities, rule R20; `ERR ≠ 0` if and only if
`STATE = ERROR`, rule R25; a result only in `DONE`, rule R28) is kept by every step from every state that
has it. -/
def Obligations.EveryStepKeepsTheInvariant : Prop :=
  ∀ s t : State, s.Inv → step s = .next t → t.Inv
end

