-- ==== Sys2Proof/Laws/Cipher.lean ====
section
/-! SUPPORT. What each validation check of `ENC` and `DEC` accepts, once (45_cipher_commands.md rules R241 to
R246). -/

namespace Sys2Proof.Machine

/-- A step that succeeded hands its value on; one that failed ends the sequence with its kind. -/
theorem Result.ok_bind {α β : Type} (a : α) (f : α → Result β) : ((.ok a : Result α) >>= f) = f a := rfl

theorem Result.error_bind {α β : Type} (k : ErrKind) (f : α → Result β) :
    ((.error k : Result α) >>= f) = .error k := rfl

/-- A sequence of checks succeeds when its first does and the rest does on its value. -/
theorem Result.bind_eq_ok {α β : Type} {x : Result α} {f : α → Result β} {b : β} :
    (x >>= f) = .ok b ↔ ∃ a, x = .ok a ∧ f a = .ok b := by
  cases x <;> simp [Result.ok_bind, Result.error_bind]

theorem cfgCheck_eq_ok {mc pc : BitVec 3} {c : Mode × Padding} :
    cfgCheck mc pc = .ok c ↔ modeOf mc = some c.1 ∧ paddingOf pc = some c.2 ∧ Supported c.1 c.2 := by
  obtain ⟨m, p⟩ := c
  unfold cfgCheck
  split
  · rename_i m' p' hm hp
    rw [hm, hp]
    split
    · rename_i h
      simp only [reduceCtorEq, false_iff]
      rintro ⟨h1, h2, h3⟩
      cases h1; cases h2
      exact h.2 (h3 h.1)
    · rename_i h
      constructor
      · rintro ⟨⟩
        exact ⟨rfl, rfl, fun hc => by_contra fun hn => h ⟨hc, hn⟩⟩
      · rintro ⟨h1, h2, -⟩
        cases h1; cases h2; rfl
  · rename_i h
    simp only [reduceCtorEq, false_iff]
    exact fun ⟨h1, h2, _⟩ => h _ _ h1 h2

theorem keyCheck_eq_ok {hash : Bool} {key : Bytes} : keyCheck hash key = .ok () ↔ KeyOk hash key := by
  cases hash <;> simp only [keyCheck, KeyOk, keySingle, keyTriple]
  · by_cases h8 : key.length = 8 <;> by_cases h24 : key.length = 24 <;> simp [h8, h24]
  · by_cases h : key = [] <;> simp [h]

theorem ivCheck_eq_ok {m : Mode} {iv : Bytes} : ivCheck m iv = .ok () ↔ IvOk m iv := by
  unfold ivCheck IvOk
  by_cases h : m = .ecb <;> by_cases h8 : iv.length = 8 <;> simp [h, h8, ivBytes]

theorem dinCheck_eq_ok {din : Bytes} : dinCheck din = .ok () ↔ 1 ≤ din.length := by
  unfold dinCheck
  split
  · rename_i h; simp [h]
  · rename_i h; simp; omega

theorem dataCheck_enc_eq_ok {m : Mode} {p : Padding} {n : Nat} :
    dataCheck .enc m p n = .ok () ↔ (m = .cts → 8 ≤ n) ∧ (m ≠ .cts → p = .none → n % 8 = 0) := by
  unfold dataCheck
  by_cases h : m = .cts
  · by_cases h8 : n < 8 <;> simp [h, h8]; omega
  · by_cases hp : p = .none <;> by_cases h8 : n % 8 = 0 <;> simp [h, hp, h8]

theorem dataCheck_dec_eq_ok {m : Mode} {p : Padding} {n : Nat} :
    dataCheck .dec m p n = .ok () ↔ (m = .cts → 8 ≤ n) ∧ (m ≠ .cts → n % 8 = 0) := by
  unfold dataCheck
  by_cases h : m = .cts
  · by_cases h8 : n < 8 <;> simp [h, h8]; omega
  · by_cases h8 : n % 8 = 0 <;> simp [h, h8]

/-- What the validation phase of `ENC` accepts. -/
theorem encCheck_eq_ok {mc pc : BitVec 3} {hash : Bool} {key iv din : Bytes} {c : Mode × Padding} :
    encCheck mc pc hash key iv din = .ok c ↔
      modeOf mc = some c.1 ∧ paddingOf pc = some c.2 ∧ Supported c.1 c.2 ∧ KeyOk hash key ∧ IvOk c.1 iv ∧
      EncLengthOk c.1 c.2 din.length := by
  unfold encCheck
  simp only [Result.bind_eq_ok]
  constructor
  · rintro ⟨⟨m, p⟩, h1, ⟨⟩, h2, ⟨⟩, h3, ⟨⟩, h4, ⟨⟩, h5, h6⟩
    cases h6
    exact ⟨(cfgCheck_eq_ok.1 h1).1, (cfgCheck_eq_ok.1 h1).2.1, (cfgCheck_eq_ok.1 h1).2.2, keyCheck_eq_ok.1 h2,
      ivCheck_eq_ok.1 h3, dinCheck_eq_ok.1 h4, dataCheck_enc_eq_ok.1 h5⟩
  · rintro ⟨h1, h2, h3, h4, h5, h6, h7⟩
    exact ⟨c, cfgCheck_eq_ok.2 ⟨h1, h2, h3⟩, (), keyCheck_eq_ok.2 h4, (), ivCheck_eq_ok.2 h5, (),
      dinCheck_eq_ok.2 h6, (), dataCheck_enc_eq_ok.2 h7, rfl⟩

/-- What the validation phase of `DEC` accepts. -/
theorem decCheck_eq_ok {mc pc : BitVec 3} {hash text : Bool} {key iv din : Bytes} {c : Mode × Padding × Bytes} :
    decCheck mc pc hash text key iv din = .ok c ↔
      modeOf mc = some c.1 ∧ paddingOf pc = some c.2.1 ∧ Supported c.1 c.2.1 ∧ KeyOk hash key ∧ IvOk c.1 iv ∧
      1 ≤ din.length ∧ ciphertext text din = .ok c.2.2 ∧
      (c.1 = .cts → 8 ≤ c.2.2.length) ∧ (c.1 ≠ .cts → c.2.2.length % 8 = 0) := by
  unfold decCheck
  simp only [Result.bind_eq_ok]
  constructor
  · rintro ⟨⟨m, p⟩, h1, ⟨⟩, h2, ⟨⟩, h3, ⟨⟩, h4, y, hy, ⟨⟩, h5, h6⟩
    cases h6
    exact ⟨(cfgCheck_eq_ok.1 h1).1, (cfgCheck_eq_ok.1 h1).2.1, (cfgCheck_eq_ok.1 h1).2.2, keyCheck_eq_ok.1 h2,
      ivCheck_eq_ok.1 h3, dinCheck_eq_ok.1 h4, hy, dataCheck_dec_eq_ok.1 h5⟩
  · rintro ⟨h1, h2, h3, h4, h5, h6, hy, h7⟩
    exact ⟨(c.1, c.2.1), cfgCheck_eq_ok.2 ⟨h1, h2, h3⟩, (), keyCheck_eq_ok.2 h4, (), ivCheck_eq_ok.2 h5, (),
      dinCheck_eq_ok.2 h6, c.2.2, hy, (), dataCheck_dec_eq_ok.2 h7, rfl⟩

/-- At most seven bytes are drawn, and only by the scheme that draws (43_padding.md rule R196). -/
theorem padDraws_le (p : Padding) (n : Nat) : padDraws p n ≤ 7 := by
  cases p <;> simp [padDraws, padCount]

theorem commandDraws_le (i : Instr) (s : State) : commandDraws i s ≤ 7 := by
  cases i <;> simp only [commandDraws, Nat.zero_le]
  unfold encDraws
  split
  · omega
  · split
    · exact padDraws_le _ _
    · omega

end Sys2Proof.Machine
end

