-- ==== Sys2Proof/Laws/Codec.lean ====
section
/-! SUPPORT. The text codec group by group: the alphabet, 24 bits as sextets and octets, and what one group of
four characters decodes to. -/

namespace Sys2Proof.Machine

/-- `b64val` undoes `b64chr` (40_codec.md rule R111). -/
theorem b64val_b64chr : ∀ i : BitVec 6, b64val (b64chr i) = some i := by decide
/-- No data character is the pad character. -/
theorem b64chr_ne_padChar : ∀ i : BitVec 6, b64chr i ≠ padChar := by decide
theorem val_pad : b64val padChar = none := by decide
/-- Only the characters of the alphabet have a value. -/
theorem eq_b64chr_of_b64val (c : Byte) (i : BitVec 6) (h : b64val c = some i) : c = b64chr i := by
  have : ∀ c : Byte, (match b64val c with | some i => decide (c = b64chr i) | none => true) = true := by decide +kernel
  have := this c
  rw [h] at this
  simpa using this

/-- the four join_sextets of 24 bits, joined -/
theorem join_sextets (v : BitVec 24) :
    v.extractLsb' 18 6 ++ v.extractLsb' 12 6 ++ v.extractLsb' 6 6 ++ v.extractLsb' 0 6 = v := by
  apply BitVec.eq_of_getLsbD_eq; intro i hi
  simp only [BitVec.getLsbD_append, BitVec.getLsbD_extractLsb']
  split
  · simp_all
  · split
    · rename_i h1 h2; simp [h2, show 6 + (i - 6) = i by omega]
    · split
      · rename_i h1 h2 h3; simp [h3, show 12 + (i - 6 - 6) = i by omega]
      · rename_i h1 h2 h3; simp [show i - 6 - 6 - 6 < 6 by omega, show 18 + (i - 6 - 6 - 6) = i by omega]

/-- The four sextets of a join are its parts. -/
theorem sextets_of_join (a b c d : BitVec 6) :
    (a ++ b ++ c ++ d : BitVec 24).extractLsb' 18 6 = a ∧ (a ++ b ++ c ++ d : BitVec 24).extractLsb' 12 6 = b ∧
    (a ++ b ++ c ++ d : BitVec 24).extractLsb' 6 6 = c ∧ (a ++ b ++ c ++ d : BitVec 24).extractLsb' 0 6 = d := by
  refine ⟨?_, ?_, ?_, ?_⟩ <;> (apply BitVec.eq_of_getLsbD_eq; intro i hi; rw [BitVec.getLsbD_extractLsb']; simp only [BitVec.getLsbD_append, hi, decide_true, Bool.true_and])
  · rw [if_neg (by omega), if_neg (by omega), if_neg (by omega), show 18 + i - 6 - 6 - 6 = i by omega]
  · rw [if_neg (by omega), if_neg (by omega), if_pos (by omega), show 12 + i - 6 - 6 = i by omega]
  · rw [if_neg (by omega), if_pos (by omega), show 6 + i - 6 = i by omega]
  · rw [if_pos (by omega), Nat.zero_add]

/-- The three octets of 24 bits, joined. -/
theorem join_octets (v : BitVec 24) : v.extractLsb' 16 8 ++ v.extractLsb' 8 8 ++ v.extractLsb' 0 8 = v := by
  apply BitVec.eq_of_getLsbD_eq; intro i hi
  simp only [BitVec.getLsbD_append, BitVec.getLsbD_extractLsb']
  split
  · simp_all
  · split
    · rename_i h1 h2; simp [h2, show 8 + (i - 8) = i by omega]
    · rename_i h1 h2; simp [show i - 8 - 8 < 8 by omega, show 16 + (i - 8 - 8) = i by omega]

/-- The three octets of a join are its parts. -/
theorem octets_of_join (a b c : Byte) :
    (a ++ b ++ c : BitVec 24).extractLsb' 16 8 = a ∧ (a ++ b ++ c : BitVec 24).extractLsb' 8 8 = b ∧
    (a ++ b ++ c : BitVec 24).extractLsb' 0 8 = c := by
  refine ⟨?_, ?_, ?_⟩ <;> (apply BitVec.eq_of_getLsbD_eq; intro i hi; rw [BitVec.getLsbD_extractLsb']; simp only [BitVec.getLsbD_append, hi, decide_true, Bool.true_and])
  · rw [if_neg (by omega), if_neg (by omega), show 16 + i - 8 - 8 = i by omega]
  · rw [if_neg (by omega), if_pos (by omega), show 8 + i - 8 = i by omega]
  · rw [if_pos (by omega), Nat.zero_add]

/-- The bits an absent byte leaves zero. -/
theorem low_sextets (b0 b1 : Byte) :
    (b0 ++ b1 ++ 0#8 : BitVec 24).extractLsb' 0 6 = 0#6 ∧ (b0 ++ 0#8 ++ 0#8 : BitVec 24).extractLsb' 6 6 = 0#6 ∧
    (b0 ++ 0#8 ++ 0#8 : BitVec 24).extractLsb' 0 16 = 0#16 := by
  refine ⟨?_, ?_, ?_⟩ <;> (apply BitVec.eq_of_getLsbD_eq; intro i hi; rw [BitVec.getLsbD_extractLsb']; simp only [BitVec.getLsbD_append, hi, decide_true, Bool.true_and])
  · rw [if_pos (by omega)]; simp
  · split
    · simp
    · rw [if_pos (by omega)]; simp
  · split
    · simp
    · rw [if_pos (by omega)]; simp

theorem dataChar_b64chr (i : BitVec 6) : dataChar (b64chr i) = .ok i := by simp [dataChar, b64val_b64chr]
theorem dataChar_eq_ok {c : Byte} {i : BitVec 6} (h : dataChar c = .ok i) : c = b64chr i := by
  unfold dataChar at h; split at h
  · cases h; exact eq_b64chr_of_b64val _ _ ‹_›
  · cases h

/-- A group of three bytes decodes, whatever follows (rule R115). -/
theorem b64dec_group_three (b0 b1 b2 : Byte) (r : Bytes) : b64dec (encodeGroup b0 b1 b2 3 ++ r) = (b64dec r).map ([b0, b1, b2] ++ ·) := by
  obtain ⟨h1, h2, h3⟩ := octets_of_join b0 b1 b2
  simp [encodeGroup, b64dec, decodeGroup, groupPads, b64chr_ne_padChar, optChar, dataChar_b64chr, bind, Except.bind, join_sextets, h1, h2, h3]
  cases b64dec r <;> rfl
/-- A last group of two bytes decodes. -/
theorem b64dec_group_two (b0 b1 : Byte) : b64dec (encodeGroup b0 b1 0#8 2) = .ok [b0, b1] := by
  obtain ⟨h1, h2, h3⟩ := octets_of_join b0 b1 0#8
  have l := (low_sextets b0 b1).1
  have e := join_sextets (b0 ++ b1 ++ 0#8)
  rw [l] at e
  simp [encodeGroup, b64dec, decodeGroup, groupPads, b64chr_ne_padChar, optChar, dataChar_b64chr, bind, Except.bind, e, h1, h2, h3]
/-- A last group of one byte decodes. -/
theorem b64dec_group_one (b0 : Byte) : b64dec (encodeGroup b0 0#8 0#8 1) = .ok [b0] := by
  obtain ⟨h1, h2, h3⟩ := octets_of_join b0 0#8 0#8
  have l := (low_sextets b0 0#8).1
  obtain ⟨-, l2, l3⟩ := low_sextets b0 0#8
  have e := join_sextets (b0 ++ 0#8 ++ 0#8)
  rw [l, l2] at e
  simp [encodeGroup, b64dec, decodeGroup, groupPads, optChar, dataChar_b64chr, bind, Except.bind, e, h1, h2, h3, l3]

/-- What a group accepts: the characters of one, two or three bytes, the first two only as the last group. -/
theorem decodeGroup_ok {c0 c1 c2 c3 : Byte} {final : Bool} {b : Bytes} (h : decodeGroup c0 c1 c2 c3 final = .ok b) :
    (∃ b0 b1 b2, b = [b0, b1, b2] ∧ encodeGroup b0 b1 b2 3 = [c0, c1, c2, c3]) ∨
    (final = true ∧ ∃ b0 b1, b = [b0, b1] ∧ encodeGroup b0 b1 0#8 2 = [c0, c1, c2, c3]) ∨
    (final = true ∧ ∃ b0, b = [b0] ∧ encodeGroup b0 0#8 0#8 1 = [c0, c1, c2, c3]) := by
  unfold decodeGroup at h
  simp only [bind, Except.bind] at h
  split at h; · cases h
  split at h; · cases h
  split at h; · cases h
  split at h; · cases h
  rename_i _ v0 e0 _ v1 e1 _ v2 e2 _ v3 e3
  obtain ⟨j0, j1, j2, j3⟩ := sextets_of_join v0 v1 v2 v3
  have o := join_octets (v0 ++ v1 ++ v2 ++ v3)
  have a0 := dataChar_eq_ok e0
  have a1 := dataChar_eq_ok e1
  by_cases p2 : final = true ∧ c2 = padChar ∧ c3 = padChar
  · have g : groupPads c2 c3 final = 2 := by simp [groupPads, p2]
    rw [g] at h e2 e3
    simp only [optChar, Nat.lt_irrefl, decide_false, if_false, Nat.reduceEqDiff, false_and, true_and, Bool.false_eq_true, ne_eq,
      Except.ok.injEq, ite_not] at h e2 e3
    subst e2 e3
    split at h
    · rename_i n2
      cases h
      have z1 : (v0 ++ v1 ++ 0#6 ++ 0#6).extractLsb' 8 8 = 0#8 := by
        apply BitVec.eq_of_getLsbD_eq; intro i hi
        have := congrArg (fun x => x.getLsbD (8 + i)) n2
        simp only [BitVec.getLsbD_extractLsb', show 8 + i < 16 by omega, decide_true, Bool.true_and, Nat.zero_add] at this
        rw [BitVec.getLsbD_extractLsb', this]; simp
      have z2 : (v0 ++ v1 ++ 0#6 ++ 0#6).extractLsb' 0 8 = 0#8 := by
        apply BitVec.eq_of_getLsbD_eq; intro i hi
        have := congrArg (fun x => x.getLsbD i) n2
        simp only [BitVec.getLsbD_extractLsb', show i < 16 by omega, decide_true, Bool.true_and, Nat.zero_add] at this
        rw [BitVec.getLsbD_extractLsb', Nat.zero_add, this]; simp
      rw [z1, z2] at o
      right; right
      simp [encodeGroup, o, j0, j1, a0, a1, p2]
    · cases h
  · by_cases p1 : final = true ∧ c3 = padChar
    · have p2' : c2 ≠ padChar := fun h => p2 ⟨p1.1, h, p1.2⟩
      have g : groupPads c2 c3 final = 1 := by simp [groupPads, p1, p2']
      rw [g] at h e2 e3
      simp only [optChar, Nat.reduceEqDiff, decide_false, if_false, false_and, true_and, Bool.false_eq_true, ne_eq,
        Except.ok.injEq, ite_not, Nat.reduceLT, decide_true, if_true] at h e2 e3
      subst e3
      split at h
      · rename_i n1
        cases h
        have a2 := dataChar_eq_ok e2
        rw [n1] at o
        right; left
        simp [encodeGroup, o, j0, j1, j2, a0, a1, a2, p1]
      · cases h
    · have g : groupPads c2 c3 final = 0 := by simp [groupPads, p1, p2]
      rw [g] at h e2 e3
      simp only [optChar, Nat.reduceEqDiff, if_false, false_and, ne_eq, Except.ok.injEq, Nat.reduceLT,
        decide_true, if_true] at h e2 e3
      subst h
      have a2 := dataChar_eq_ok e2
      have a3 := dataChar_eq_ok e3
      left
      simp [encodeGroup, o, j0, j1, j2, j3, a0, a1, a2, a3]

end Sys2Proof.Machine
end

