-- ==== Sys2Proof/Laws/Des.lean ====
section
/-! SUPPORT. The block ciphers: what a permutation table does to each bit, the Feistel rounds undone by the
reversed keys, and blocks as bit strings and back. -/

namespace Sys2Proof.Machine

/-! ### Permutations -/

/-- A number built bit by bit, leftmost first: bit `len - 1 - i` from the right is the `i`-th bit given. -/
theorem foldl_bits_testBit (f : Nat → Bool) (t : List Nat) (i : Nat) (hi : i < t.length) :
    (t.foldl (fun acc j => 2 * acc + (f j).toNat) 0).testBit (t.length - 1 - i) = f t[i] := by
  induction t using List.reverseRecOn generalizing i with
  | nil => simp at hi
  | append_singleton t a ih =>
    simp only [List.foldl_append, List.foldl_cons, List.foldl_nil, List.length_append, List.length_singleton]
    by_cases h : i = t.length
    · subst h
      cases hb : f a <;> simp [Nat.testBit_zero, hb]
    · have hlt : i < t.length := by simp at hi; omega
      have e : t.length + 1 - 1 - i = (t.length - 1 - i) + 1 := by omega
      rw [e, Nat.testBit_succ, List.getElem_append_left hlt, ← ih i hlt]
      congr 1
      have := Bool.toNat_le (f a)
      omega

/-- Bit `i` (from the left, counted from 0) of `permute(x, T)` is bit `T[i]` of `x` (42_des_core.md rule R161). -/
theorem permute_getMsbD {n m : Nat} (t : List Nat) (ht : t.length = m) (x : BitVec n) (i : Nat) (hi : i < m) :
    (permute m t x).getMsbD i = x.getMsbD (t.getD i 0 - 1) := by
  subst ht
  have h := foldl_bits_testBit (fun j => x.getMsbD (j - 1)) t i hi
  simp only [permute, BitVec.getMsbD, hi, decide_true, Bool.true_and, BitVec.getLsbD_ofNat]
  have : t.length - 1 - i < t.length := by omega
  simp only [this, decide_true, Bool.true_and, List.getD_eq_getElem t 0 hi]
  exact h

/-- Two strings with the same bits from the left are equal. -/
theorem eq_of_getMsbD {n : Nat} {x y : BitVec n} (h : ∀ i, i < n → x.getMsbD i = y.getMsbD i) : x = y :=
  BitVec.eq_of_getMsbD_eq fun i => h i

/-- Two tables, the second undoing the first, undo each other on bit strings. -/
theorem permute_permute {m : Nat} (t u : List Nat) (ht : t.length = m) (hu : u.length = m)
    (h : ∀ i, i < m → t.getD i 0 - 1 < m ∧ u.getD (t.getD i 0 - 1) 0 - 1 = i) (x : BitVec m) :
    permute m t (permute m u x) = x :=
  eq_of_getMsbD fun i hi => by
    rw [permute_getMsbD t ht _ i hi, permute_getMsbD u hu _ _ (h i hi).1, (h i hi).2]

/-- `FP` undoes `IP` (rules R162, R163). -/
theorem permute_FP_IP (x : BitVec 64) : permute 64 tableFP (permute 64 tableIP x) = x :=
  permute_permute tableFP tableIP rfl rfl (by decide) x

/-- `IP` undoes `FP`. -/
theorem permute_IP_FP (x : BitVec 64) : permute 64 tableIP (permute 64 tableFP x) = x :=
  permute_permute tableIP tableFP rfl rfl (by decide) x

/-! ### Rounds -/

theorem feistel_append (ks ks' : List (BitVec 48)) (l r : BitVec 32) :
    feistel (ks ++ ks') l r = feistel ks' (feistel ks l r).1 (feistel ks l r).2 := by
  induction ks generalizing l r with
  | nil => rfl
  | cons k ks ih => simp [feistel, ih]

/-- The rounds with the keys reversed undo the rounds, the halves swapped before and after (rule R170). -/
theorem feistel_reverse (ks : List (BitVec 48)) (l r : BitVec 32) :
    feistel ks.reverse (feistel ks l r).2 (feistel ks l r).1 = (r, l) := by
  induction ks generalizing l r with
  | nil => rfl
  | cons k ks ih =>
    rw [List.reverse_cons, feistel_append]
    simp only [feistel, ih]
    simp

theorem extract_append_high (a b : BitVec 32) : (a ++ b).extractLsb' 32 32 = a := by
  apply BitVec.eq_of_getLsbD_eq
  intro i hi
  rw [BitVec.getLsbD_extractLsb', BitVec.getLsbD_append]
  simp [hi]

theorem extract_append_low (a b : BitVec 32) : (a ++ b).extractLsb' 0 32 = b := by
  apply BitVec.eq_of_getLsbD_eq
  intro i hi
  rw [BitVec.getLsbD_extractLsb', BitVec.getLsbD_append]
  simp [hi]

theorem append_extract (t : BitVec 64) : t.extractLsb' 32 32 ++ t.extractLsb' 0 32 = t := by
  apply BitVec.eq_of_getLsbD_eq
  intro i hi
  simp only [BitVec.getLsbD_append, BitVec.getLsbD_extractLsb']
  split
  · simp [*]
  · have : i - 32 < 32 := by omega
    simp [this, show 32 + (i - 32) = i by omega]

/-- The block function with the keys reversed undoes the block function (rule R170). -/
theorem desBits_reverse (ks : List (BitVec 48)) (x : BitVec 64) : desBits ks.reverse (desBits ks x) = x := by
  simp only [desBits, permute_IP_FP, extract_append_high, extract_append_low, feistel_reverse]
  rw [append_extract, permute_FP_IP]

/-! ### Key schedule -/

/-- The round keys depend on the bits of the key that `PC1` picks, none of them the last of its byte (rule R172). -/
theorem keySchedule_congr (k k' : BitVec 64) (h : ∀ i, i < 64 → i % 8 ≠ 7 → k.getMsbD i = k'.getMsbD i) :
    keySchedule k = keySchedule k' := by
  have hpc : ∀ i, i < 56 → tablePC1.getD i 0 - 1 < 64 ∧ (tablePC1.getD i 0 - 1) % 8 ≠ 7 := by decide
  have e : permute 56 tablePC1 k = permute 56 tablePC1 k' :=
    eq_of_getMsbD fun i hi => by
      rw [permute_getMsbD (m := 56) tablePC1 rfl _ i hi, permute_getMsbD (m := 56) tablePC1 rfl _ i hi]
      exact h _ (hpc i hi).1 (hpc i hi).2
  simp only [keySchedule, e]

/-! ### Blocks and bits -/

@[simp] theorem blockOfBits_length (x : BitVec 64) : (blockOfBits x).length = 8 := by simp [blockOfBits]

theorem blockOfBits_eq (x : BitVec 64) : blockOfBits x =
    [x.extractLsb' 56 8, x.extractLsb' 48 8, x.extractLsb' 40 8, x.extractLsb' 32 8,
     x.extractLsb' 24 8, x.extractLsb' 16 8, x.extractLsb' 8 8, x.extractLsb' 0 8] := rfl

/-- `bits` undoes `bytes` (20_memory.md rule R60 item 3). -/
@[simp] theorem bitsOfBlock_blockOfBits (x : BitVec 64) : bitsOfBlock (blockOfBits x) = x := by
  apply BitVec.eq_of_toNat_eq
  have hx := x.isLt
  simp [bitsOfBlock, blockOfBits_eq, BitVec.extractLsb'_toNat, Nat.shiftRight_eq_div_pow]
  omega

/-- `bytes` undoes `bits` on a block of eight bytes. -/
theorem blockOfBits_bitsOfBlock (b : Bytes) (h : b.length = 8) : blockOfBits (bitsOfBlock b) = b := by
  match b, h with
  | [b0, b1, b2, b3, b4, b5, b6, b7], _ =>
    have h0 := b0.isLt
    have h1 := b1.isLt
    have h2 := b2.isLt
    have h3 := b3.isLt
    have h4 := b4.isLt
    have h5 := b5.isLt
    have h6 := b6.isLt
    have h7 := b7.isLt
    simp only [blockOfBits_eq, List.cons.injEq, and_true]
    refine ⟨?_, ?_, ?_, ?_, ?_, ?_, ?_, ?_⟩ <;> apply BitVec.eq_of_toNat_eq <;>
      simp [bitsOfBlock, BitVec.extractLsb'_toNat, Nat.shiftRight_eq_div_pow] <;> omega

/-- Bit `i` of a block, from the left and from 0, is bit `i % 8` of its byte `i / 8` (20_memory.md rule R60
item 3). -/
theorem bitsOfBlock_getMsbD (b : Bytes) (hb : b.length = 8) (i : Nat) (hi : i < 64) :
    (bitsOfBlock b).getMsbD i = (b.getD (i / 8) 0#8).getMsbD (i % 8) := by
  have h := blockOfBits_bitsOfBlock b hb
  have e : b.getD (i / 8) 0#8 = (bitsOfBlock b).extractLsb' (56 - 8 * (i / 8)) 8 := by
    conv_lhs => rw [← h]
    simp [blockOfBits, show i / 8 < 8 by omega]
  rw [e]
  simp only [BitVec.getMsbD, BitVec.getLsbD_extractLsb']
  have h1 : i % 8 < 8 := by omega
  have h2 : 8 - 1 - i % 8 < 8 := by omega
  simp only [hi, h1, h2, decide_true, Bool.true_and]
  congr 1; omega

@[simp] theorem desEnc_length (k x : Bytes) : (desEnc k x).length = 8 := by simp [desEnc]
@[simp] theorem desDec_length (k x : Bytes) : (desDec k x).length = 8 := by simp [desDec]
@[simp] theorem tdeaEnc_length (k x : Bytes) : (tdeaEnc k x).length = 8 := by simp [tdeaEnc]
@[simp] theorem tdeaDec_length (k x : Bytes) : (tdeaDec k x).length = 8 := by simp [tdeaDec]

@[simp] theorem blockEnc_length (k x : Bytes) : (blockEnc k x).length = 8 := by
  unfold blockEnc; split <;> simp

@[simp] theorem blockDec_length (k x : Bytes) : (blockDec k x).length = 8 := by
  unfold blockDec; split <;> simp

end Sys2Proof.Machine
end

