-- ==== Sys2Proof/Laws/Modes.lean ====
section
/-! SUPPORT. Byte sequences cut into blocks, and the chains of the modes over a list of blocks. -/

namespace Sys2Proof.Machine

/-! ### Byte-wise exclusive or -/

@[simp] theorem xorBytes_length (s t : Bytes) : (xorBytes s t).length = min s.length t.length := by
  simp [xorBytes]

/-- Twice the same key stream, no longer than it, is nothing. -/
theorem xorBytes_cancel (s t : Bytes) (h : s.length ≤ t.length) : xorBytes (xorBytes s t) t = s := by
  induction s generalizing t with
  | nil => simp [xorBytes]
  | cons a s ih =>
    cases t with
    | nil => simp at h
    | cons b t =>
      simp only [xorBytes, List.zipWith_cons_cons, List.cons.injEq] at ih ⊢
      exact ⟨by simp, ih t (by simpa using h)⟩

/-! ### Blocks (20_memory.md rule R60 item 2) -/

@[simp] theorem blocks_nil : blocks [] = [] := rfl

/-- The first block of a sequence that begins with eight bytes, and the blocks of the rest. -/
theorem blocks_append (b s : Bytes) (hb : b.length = 8) : blocks (b ++ s) = b :: blocks s := by
  have e : (b ++ s).length / 8 = s.length / 8 + 1 := by simp [hb]
  simp only [blocks, blockSize, e, List.range_succ_eq_map, List.map_cons, List.map_map]
  congr 1
  · simp [sub, hb]
  · apply List.map_congr_left
    intro j _
    have : 8 * (j + 1) = b.length + 8 * j := by omega
    simp [sub, this]

/-- A non-empty sequence of whole blocks is a block before a sequence of whole blocks. -/
theorem exists_block (s : Bytes) (h : s.length % 8 = 0) (hs : s ≠ []) :
    ∃ b r, s = b ++ r ∧ b.length = 8 ∧ r.length % 8 = 0 := by
  have : s.length ≠ 0 := by simpa using hs
  exact ⟨s.take 8, s.drop 8, (List.take_append_drop 8 s).symm, by rw [List.length_take]; omega, by rw [List.length_drop]; omega⟩

/-- Induction over a sequence of whole blocks. -/
theorem blocks_induction {P : (s : Bytes) → s.length % 8 = 0 → Prop} (nil : P [] rfl)
    (block : ∀ (b r : Bytes) (_ : b.length = 8) (hr : r.length % 8 = 0) (h : (b ++ r).length % 8 = 0),
      P r hr → P (b ++ r) h) :
    ∀ (s : Bytes) (hs : s.length % 8 = 0), P s hs := by
  have key : ∀ (n : Nat) (s : Bytes) (hs : s.length % 8 = 0), s.length = n → P s hs := by
    intro n
    induction n using Nat.strongRecOn with
    | _ n ih =>
      intro s hs hn
      by_cases he : s = []
      · subst he; exact nil
      · obtain ⟨b, r, rfl, hb, hr⟩ := exists_block s hs he
        exact block b r hb hr hs (ih r.length (by simp at hn; omega) r hr rfl)
  exact fun s hs => key s.length s hs rfl

/-! ### The chains -/

theorem ecbEnc_append (k b r : Bytes) (hb : b.length = 8) : ecbEnc k (b ++ r) = blockEnc k b ++ ecbEnc k r := by
  simp [ecbEnc, blocks_append b r hb]

theorem ecbDec_append (k b r : Bytes) (hb : b.length = 8) : ecbDec k (b ++ r) = blockDec k b ++ ecbDec k r := by
  simp [ecbDec, blocks_append b r hb]

theorem cbcEnc_append (k iv b r : Bytes) (hb : b.length = 8) :
    cbcEnc k iv (b ++ r) = blockEnc k (xorBytes b iv) ++ cbcEnc k (blockEnc k (xorBytes b iv)) r := by
  simp [cbcEnc, blocks_append b r hb, cbcEncBlocks]

theorem cbcDec_append (k iv b r : Bytes) (hb : b.length = 8) :
    cbcDec k iv (b ++ r) = xorBytes (blockDec k b) iv ++ cbcDec k b r := by
  simp [cbcDec, blocks_append b r hb, cbcDecBlocks]

@[simp] theorem ecbEnc_nil (k : Bytes) : ecbEnc k [] = [] := rfl
@[simp] theorem ecbDec_nil (k : Bytes) : ecbDec k [] = [] := rfl
@[simp] theorem cbcEnc_nil (k iv : Bytes) : cbcEnc k iv [] = [] := rfl
@[simp] theorem cbcDec_nil (k iv : Bytes) : cbcDec k iv [] = [] := rfl

/-- `BlockDec` undoes `BlockEnc` on a block (42_des_core.md rules R170, R171). -/
theorem blockDec_blockEnc (k x : Bytes) (hx : x.length = 8) : blockDec k (blockEnc k x) = x := by
  have de : ∀ j z : Bytes, z.length = 8 → desDec j (desEnc j z) = z := fun j z hz => by
    simp only [desDec, desEnc, bitsOfBlock_blockOfBits, desBits_reverse, blockOfBits_bitsOfBlock z hz]
  have ed : ∀ j z : Bytes, z.length = 8 → desEnc j (desDec j z) = z := fun j z hz => by
    have := desBits_reverse (keySchedule (bitsOfBlock j)).reverse (bitsOfBlock z)
    rw [List.reverse_reverse] at this
    simp only [desDec, desEnc, bitsOfBlock_blockOfBits, this, blockOfBits_bitsOfBlock z hz]
  unfold blockEnc blockDec
  split
  · simp [tdeaEnc, tdeaDec, de, ed, hx]
  · exact de k x hx

/-- The output of CBC encryption of whole blocks has the input's length. -/
theorem cbcEnc_length (k : Bytes) (x : Bytes) (hx : x.length % 8 = 0) :
    ∀ iv, (cbcEnc k iv x).length = x.length := by
  induction x, hx using blocks_induction with
  | nil => intro iv; rfl
  | block b r hb hr _ ih => intro iv; simp [cbcEnc_append k iv b r hb, ih, hb]

/-- CBC decryption undoes CBC encryption of whole blocks under an eight-byte IV (44_modes.md rule R214). -/
theorem cbcDec_cbcEnc (k : Bytes) (x : Bytes) (hx : x.length % 8 = 0) :
    ∀ iv : Bytes, iv.length = 8 → cbcDec k iv (cbcEnc k iv x) = x := by
  induction x, hx using blocks_induction with
  | nil => intro iv _; simp
  | block b r hb hr _ ih =>
    intro iv hiv
    rw [cbcEnc_append k iv b r hb, cbcDec_append k iv _ _ (by simp), ih _ (by simp),
      blockDec_blockEnc _ _ (by simp [hb, hiv]), xorBytes_cancel b iv (by omega)]

/-- CBC over a sequence of whole blocks followed by more: the chain goes on from the last ciphertext block. -/
theorem cbcEnc_append_whole (k : Bytes) (r : Bytes) (x : Bytes) (hx : x.length % 8 = 0) :
    ∀ iv, cbcEnc k iv (x ++ r) = cbcEnc k iv x ++
      cbcEnc k (if x = [] then iv else (cbcEnc k iv x).drop (x.length - 8)) r := by
  induction x, hx using blocks_induction with
  | nil => intro iv; simp
  | block b q hb hq _ ih =>
    intro iv
    have hne : b ++ q ≠ [] := by intro h; simp [List.append_eq_nil_iff] at h; simp [h.1] at hb
    rw [List.append_assoc, cbcEnc_append k iv b (q ++ r) hb, cbcEnc_append k iv b q hb, ih, if_neg hne,
      List.append_assoc]
    congr 2
    by_cases h : q = []
    · simp [h, hb]
    · have hl : 8 ≤ q.length := by
        have : q.length ≠ 0 := by simpa using h
        omega
      have e : (b ++ q).length - 8 = (blockEnc k (xorBytes b iv)).length + (q.length - 8) := by
        simp [hb]; omega
      rw [if_neg h, e, List.drop_append, List.drop_eq_nil_of_le (Nat.le_add_right _ _)]
      simp

/-! ### Blocks by their index -/

theorem sub_zero_append (b r : Bytes) (hb : b.length = 8) : sub (b ++ r) 0 8 = b := by simp [sub, hb]

theorem sub_succ_append (b r : Bytes) (j : Nat) (hb : b.length = 8) :
    sub (b ++ r) (8 * (j + 1)) 8 = sub r (8 * j) 8 := by
  have : 8 * (j + 1) = b.length + 8 * j := by omega
  simp [sub, this]

/-! ### Ciphertext stealing -/

/-- The chain value after the whole blocks `x`: the IV, or the last ciphertext block. -/
def chainEnd (k iv x : Bytes) : Bytes := if x = [] then iv else (cbcEnc k iv x).drop (x.length - 8)

theorem chainEnd_length (k iv x : Bytes) (hx : x.length % 8 = 0) (hiv : iv.length = 8) : (chainEnd k iv x).length = 8 := by
  unfold chainEnd; split
  · exact hiv
  · have : x.length ≠ 0 := by simpa using ‹¬x = []›
    simp [cbcEnc_length k x hx]; omega

/-- CBC of the zero-filled input of CTS: whole blocks `h`, the last full block `a`, the last bytes `b`. -/
theorem cbcEnc_filled (k iv h a b : Bytes) (hh : h.length % 8 = 0) (ha : a.length = 8) (hb : b.length < 8) :
    let ya := blockEnc k (xorBytes a (chainEnd k iv h))
    let yb := blockEnc k (xorBytes (b ++ rep 0#8 (8 - b.length)) ya)
    cbcEnc k iv (h ++ a ++ (b ++ rep 0#8 (8 - b.length))) = cbcEnc k iv h ++ ya ++ yb := by
  intro ya yb
  have hb' : (b ++ rep 0#8 (8 - b.length)).length = 8 := by simp [rep]; omega
  rw [List.append_assoc, cbcEnc_append_whole k _ h hh iv]
  rw [cbcEnc_append k _ a _ ha]
  have := cbcEnc_append k (blockEnc k (xorBytes a (chainEnd k iv h))) (b ++ rep 0#8 (8 - b.length)) [] hb'
  simp only [List.append_nil, cbcEnc_nil] at this
  unfold chainEnd at this
  rw [this]
  simp [ya, yb, chainEnd]

/-- CTS encryption of the same input (44_modes.md rule R218). -/
theorem ctsEnc_filled (k iv h a b : Bytes) (hh : h.length % 8 = 0) (ha : a.length = 8) (hb : b.length < 8) (hb0 : b ≠ []) :
    let ya := blockEnc k (xorBytes a (chainEnd k iv h))
    let yb := blockEnc k (xorBytes (b ++ rep 0#8 (8 - b.length)) ya)
    ctsEnc k iv (h ++ a ++ b) = cbcEnc k iv h ++ ya.take b.length ++ yb := by
  intro ya yb
  have hbl : b.length ≠ 0 := by simpa using hb0
  have hd : (h ++ a ++ b).length % 8 = b.length := by simp [ha]; omega
  have hc := cbcEnc_filled k iv h a b hh ha hb
  simp only [ctsEnc, hd, hbl, if_false]
  rw [List.append_assoc (h ++ a) b]
  rw [show h ++ a ++ (b ++ rep 0#8 (8 - b.length)) = h ++ a ++ (b ++ rep 0#8 (8 - b.length)) from rfl, hc]
  have hl := cbcEnc_length k h hh iv
  have hlen : (cbcEnc k iv h ++ ya ++ yb).length / 8 = h.length / 8 + 2 := by simp [hl, ya, yb]; omega
  simp only [ya, yb] at hlen ⊢
  rw [hlen]
  have e1 : 8 * (h.length / 8 + 2 - 2) = (cbcEnc k iv h).length := by omega
  have e2 : 8 * (h.length / 8 + 2 - 1) = (cbcEnc k iv h ++ blockEnc k (xorBytes a (chainEnd k iv h))).length := by simp [hl]; omega
  rw [e1, e2]
  simp [sub]

/-- Zero fill leaves the key stream: the tail of `t` is not touched. -/
theorem xorBytes_filled (b t : Bytes) (hb : b.length ≤ t.length) :
    xorBytes (b ++ rep 0#8 (t.length - b.length)) t = xorBytes b (t.take b.length) ++ t.drop b.length := by
  induction b generalizing t with
  | nil =>
    simp [xorBytes, rep]
    induction t with
    | nil => rfl
    | cons c t ih => simp [List.replicate_succ, ih]
  | cons c b ih =>
    cases t with
    | nil => simp at hb
    | cons d t =>
      have := ih t (by simpa using hb)
      simp [xorBytes] at this ⊢
      exact this

end Sys2Proof.Machine
end

