-- ==== Sys2Proof/Laws/State.lean ====
section
/-! SUPPORT. The fields of an updated state: one lemma per field per update, each true by `rfl`. `takeError`,
`succeed`, `clear` and `illegalCommand` are `settle` at an outcome; simp rewrites them to it. -/

namespace Sys2Proof.Machine

/-! ### The end of a command -/

@[simp] theorem State.takeError_eq_settle (s : State) (k : ErrKind) : s.takeError k = s.settle .error (some k) [] := rfl
@[simp] theorem State.succeed_eq_settle (s : State) (v : Bytes) : s.succeed v = s.settle .done none v := rfl
@[simp] theorem State.clear_eq_settle (s : State) : s.clear = s.settle .idle none [] := rfl
@[simp] theorem State.illegalCommand_eq_settle (s : State) : s.illegalCommand = s.settle .error (some .illegalCommand) [] := rfl

@[simp] theorem State.settle_key (s : State) (p : Phase) (e : Option ErrKind) (v : Bytes) :
    (s.settle p e v).key = [] := rfl
@[simp] theorem State.settle_iv (s : State) (p : Phase) (e : Option ErrKind) (v : Bytes) :
    (s.settle p e v).iv = [] := rfl
@[simp] theorem State.settle_din (s : State) (p : Phase) (e : Option ErrKind) (v : Bytes) :
    (s.settle p e v).din = [] := rfl
@[simp] theorem State.settle_dout (s : State) (p : Phase) (e : Option ErrKind) (v : Bytes) :
    (s.settle p e v).dout = v := rfl
@[simp] theorem State.settle_phase (s : State) (p : Phase) (e : Option ErrKind) (v : Bytes) :
    (s.settle p e v).phase = p := rfl
@[simp] theorem State.settle_err (s : State) (p : Phase) (e : Option ErrKind) (v : Bytes) :
    (s.settle p e v).err = e := rfl
@[simp] theorem State.settle_ovf (s : State) (p : Phase) (e : Option ErrKind) (v : Bytes) :
    (s.settle p e v).ovf = false := rfl
@[simp] theorem State.settle_udf (s : State) (p : Phase) (e : Option ErrKind) (v : Bytes) :
    (s.settle p e v).udf = false := rfl
@[simp] theorem State.settle_cfg (s : State) (p : Phase) (e : Option ErrKind) (v : Bytes) :
    (s.settle p e v).cfg = s.cfg := rfl
@[simp] theorem State.settle_bus (s : State) (p : Phase) (e : Option ErrKind) (v : Bytes) :
    (s.settle p e v).bus = s.bus := rfl
@[simp] theorem State.settle_rdata (s : State) (p : Phase) (e : Option ErrKind) (v : Bytes) :
    (s.settle p e v).rdata = s.rdata := rfl
@[simp] theorem State.settle_draws (s : State) (p : Phase) (e : Option ErrKind) (v : Bytes) :
    (s.settle p e v).draws = s.draws := rfl

/-! ### The draws taken -/

@[simp] theorem State.advanceDraws_key (s : State) (n : Nat) :
    (s.advanceDraws n).key = s.key := rfl
@[simp] theorem State.advanceDraws_iv (s : State) (n : Nat) :
    (s.advanceDraws n).iv = s.iv := rfl
@[simp] theorem State.advanceDraws_din (s : State) (n : Nat) :
    (s.advanceDraws n).din = s.din := rfl
@[simp] theorem State.advanceDraws_dout (s : State) (n : Nat) :
    (s.advanceDraws n).dout = s.dout := rfl
@[simp] theorem State.advanceDraws_phase (s : State) (n : Nat) :
    (s.advanceDraws n).phase = s.phase := rfl
@[simp] theorem State.advanceDraws_err (s : State) (n : Nat) :
    (s.advanceDraws n).err = s.err := rfl
@[simp] theorem State.advanceDraws_ovf (s : State) (n : Nat) :
    (s.advanceDraws n).ovf = s.ovf := rfl
@[simp] theorem State.advanceDraws_udf (s : State) (n : Nat) :
    (s.advanceDraws n).udf = s.udf := rfl
@[simp] theorem State.advanceDraws_cfg (s : State) (n : Nat) :
    (s.advanceDraws n).cfg = s.cfg := rfl
@[simp] theorem State.advanceDraws_bus (s : State) (n : Nat) :
    (s.advanceDraws n).bus = s.bus := rfl
@[simp] theorem State.advanceDraws_rdata (s : State) (n : Nat) :
    (s.advanceDraws n).rdata = s.rdata := rfl
@[simp] theorem State.advanceDraws_draws (s : State) (n : Nat) :
    (s.advanceDraws n).draws = s.draws + n := rfl

/-! ### Reset -/

@[simp] theorem State.resetWith_key (c : Config) :
    (State.resetWith c).key = [] := rfl
@[simp] theorem State.resetWith_iv (c : Config) :
    (State.resetWith c).iv = [] := rfl
@[simp] theorem State.resetWith_din (c : Config) :
    (State.resetWith c).din = [] := rfl
@[simp] theorem State.resetWith_dout (c : Config) :
    (State.resetWith c).dout = [] := rfl
@[simp] theorem State.resetWith_phase (c : Config) :
    (State.resetWith c).phase = .idle := rfl
@[simp] theorem State.resetWith_err (c : Config) :
    (State.resetWith c).err = none := rfl
@[simp] theorem State.resetWith_ovf (c : Config) :
    (State.resetWith c).ovf = false := rfl
@[simp] theorem State.resetWith_udf (c : Config) :
    (State.resetWith c).udf = false := rfl
@[simp] theorem State.resetWith_cfg (c : Config) :
    (State.resetWith c).cfg = c := rfl
@[simp] theorem State.resetWith_bus (c : Config) :
    (State.resetWith c).bus = [] := rfl
@[simp] theorem State.resetWith_rdata (c : Config) :
    (State.resetWith c).rdata = 0#32 := rfl
@[simp] theorem State.resetWith_draws (c : Config) :
    (State.resetWith c).draws = 0 := rfl

@[simp] theorem State.hardReset_key (s : State) :
    (s.hardReset).key = [] := rfl
@[simp] theorem State.hardReset_iv (s : State) :
    (s.hardReset).iv = [] := rfl
@[simp] theorem State.hardReset_din (s : State) :
    (s.hardReset).din = [] := rfl
@[simp] theorem State.hardReset_dout (s : State) :
    (s.hardReset).dout = [] := rfl
@[simp] theorem State.hardReset_phase (s : State) :
    (s.hardReset).phase = .idle := rfl
@[simp] theorem State.hardReset_err (s : State) :
    (s.hardReset).err = none := rfl
@[simp] theorem State.hardReset_ovf (s : State) :
    (s.hardReset).ovf = false := rfl
@[simp] theorem State.hardReset_udf (s : State) :
    (s.hardReset).udf = false := rfl
@[simp] theorem State.hardReset_cfg (s : State) :
    (s.hardReset).cfg = s.cfg := rfl
@[simp] theorem State.hardReset_bus (s : State) :
    (s.hardReset).bus = s.bus := rfl
@[simp] theorem State.hardReset_rdata (s : State) :
    (s.hardReset).rdata = s.rdata := rfl
@[simp] theorem State.hardReset_draws (s : State) :
    (s.hardReset).draws = s.draws := rfl

/-! ### Host events -/

@[simp] theorem State.withEvent_key (s : State) (e : Event) :
    (s.withEvent e).key = s.key := rfl
@[simp] theorem State.withEvent_iv (s : State) (e : Event) :
    (s.withEvent e).iv = s.iv := rfl
@[simp] theorem State.withEvent_din (s : State) (e : Event) :
    (s.withEvent e).din = s.din := rfl
@[simp] theorem State.withEvent_dout (s : State) (e : Event) :
    (s.withEvent e).dout = s.dout := rfl
@[simp] theorem State.withEvent_phase (s : State) (e : Event) :
    (s.withEvent e).phase = s.phase := rfl
@[simp] theorem State.withEvent_err (s : State) (e : Event) :
    (s.withEvent e).err = s.err := rfl
@[simp] theorem State.withEvent_ovf (s : State) (e : Event) :
    (s.withEvent e).ovf = s.ovf := rfl
@[simp] theorem State.withEvent_udf (s : State) (e : Event) :
    (s.withEvent e).udf = s.udf := rfl
@[simp] theorem State.withEvent_cfg (s : State) (e : Event) :
    (s.withEvent e).cfg = s.cfg := rfl
@[simp] theorem State.withEvent_bus (s : State) (e : Event) :
    (s.withEvent e).bus = e :: s.bus := rfl
@[simp] theorem State.withEvent_rdata (s : State) (e : Event) :
    (s.withEvent e).rdata = s.rdata := rfl
@[simp] theorem State.withEvent_draws (s : State) (e : Event) :
    (s.withEvent e).draws = s.draws := rfl

/-! ### Reads -/

@[simp] theorem State.readReg_key (s : State) (r : Reg) :
    (s.readReg r).key = (s.afterRead r).key := rfl
@[simp] theorem State.readReg_iv (s : State) (r : Reg) :
    (s.readReg r).iv = (s.afterRead r).iv := rfl
@[simp] theorem State.readReg_din (s : State) (r : Reg) :
    (s.readReg r).din = (s.afterRead r).din := rfl
@[simp] theorem State.readReg_dout (s : State) (r : Reg) :
    (s.readReg r).dout = (s.afterRead r).dout := rfl
@[simp] theorem State.readReg_phase (s : State) (r : Reg) :
    (s.readReg r).phase = (s.afterRead r).phase := rfl
@[simp] theorem State.readReg_err (s : State) (r : Reg) :
    (s.readReg r).err = (s.afterRead r).err := rfl
@[simp] theorem State.readReg_ovf (s : State) (r : Reg) :
    (s.readReg r).ovf = (s.afterRead r).ovf := rfl
@[simp] theorem State.readReg_udf (s : State) (r : Reg) :
    (s.readReg r).udf = (s.afterRead r).udf := rfl
@[simp] theorem State.readReg_cfg (s : State) (r : Reg) :
    (s.readReg r).cfg = (s.afterRead r).cfg := rfl
@[simp] theorem State.readReg_bus (s : State) (r : Reg) :
    (s.readReg r).bus = (s.afterRead r).bus := rfl
@[simp] theorem State.readReg_rdata (s : State) (r : Reg) :
    (s.readReg r).rdata = s.regValue r := rfl
@[simp] theorem State.readReg_draws (s : State) (r : Reg) :
    (s.readReg r).draws = (s.afterRead r).draws := rfl

end Sys2Proof.Machine
end

