-- ==== Sys2Proof/Laws/Ops.lean ====
section
/-! SUPPORT. What each shared operation can do, once: reads, pushes, the command frame, `exec` and `step`. -/

namespace Sys2Proof.Machine

/-! ### Reads and pushes -/

/-- A read of any register but `DOUTPOP` has no side effect. -/
theorem State.afterRead_of_ne (s : State) {r : Reg} (h : r ≠ .doutpop) : s.afterRead r = s := by
  cases r <;> first | rfl | exact absurd rfl h

theorem State.afterRead_doutpop_nil (s : State) (h : s.dout = []) :
    s.afterRead .doutpop = { s with udf := true } := by
  simp [State.afterRead, h]

theorem State.afterRead_doutpop_cons (s : State) {b : Byte} {rest : Bytes} (h : s.dout = b :: rest) :
    s.afterRead .doutpop = { s with dout := rest } := by
  simp [State.afterRead, h]

/-- A push is one of two things: the byte appended to a buffer with room, or dropped with `OVF` set. -/
theorem State.pushKey_cases (s : State) (b : Byte) :
    (s.key.length < s.cfg.keyMax ∧ s.pushKey b = { s with key := s.key ++ [b] }) ∨
    (s.cfg.keyMax ≤ s.key.length ∧ s.pushKey b = { s with ovf := true }) := by
  unfold State.pushKey; split
  · exact .inl ⟨‹_›, rfl⟩
  · exact .inr ⟨Nat.le_of_not_lt ‹_›, rfl⟩

theorem State.pushIv_cases (s : State) (b : Byte) :
    (s.iv.length < s.cfg.ivMax ∧ s.pushIv b = { s with iv := s.iv ++ [b] }) ∨
    (s.cfg.ivMax ≤ s.iv.length ∧ s.pushIv b = { s with ovf := true }) := by
  unfold State.pushIv; split
  · exact .inl ⟨‹_›, rfl⟩
  · exact .inr ⟨Nat.le_of_not_lt ‹_›, rfl⟩

theorem State.pushDin_cases (s : State) (b : Byte) :
    (s.din.length < s.cfg.inMax ∧ s.pushDin b = { s with din := s.din ++ [b] }) ∨
    (s.cfg.inMax ≤ s.din.length ∧ s.pushDin b = { s with ovf := true }) := by
  unfold State.pushDin; split
  · exact .inl ⟨‹_›, rfl⟩
  · exact .inr ⟨Nat.le_of_not_lt ‹_›, rfl⟩

/-! ### The command frame -/

theorem State.frame_ovf (s : State) (r : Result Bytes) (h : s.ovf = true) :
    s.frame r = s.takeError .bufferOverflow := by
  simp [State.frame, h]

theorem State.frame_error (s : State) (k : ErrKind) (h : s.ovf = false) :
    s.frame (.error k) = s.takeError k := by
  simp [State.frame, h]

theorem State.frame_fits (s : State) (v : Bytes) (h : s.ovf = false) (hv : v.length ≤ s.cfg.outMax) :
    s.frame (.ok v) = s.succeed v := by
  simp [State.frame, h, Nat.not_lt.mpr hv]

theorem State.frame_too_long (s : State) (v : Bytes) (h : s.ovf = false) (hv : s.cfg.outMax < v.length) :
    s.frame (.ok v) = s.takeError .bufferOverflow := by
  simp [State.frame, h, hv]

/-- Everything the frame can do: the command ends with an error kind, or with a result that fits `DOUT`. -/
theorem State.frame_cases (s : State) (r : Result Bytes) :
    (s.ovf = true ∧ s.frame r = s.takeError .bufferOverflow) ∨
    (s.ovf = false ∧ ∃ k, r = .error k ∧ s.frame r = s.takeError k) ∨
    (s.ovf = false ∧ ∃ v, r = .ok v ∧ s.cfg.outMax < v.length ∧ s.frame r = s.takeError .bufferOverflow) ∨
    (s.ovf = false ∧ ∃ v, r = .ok v ∧ v.length ≤ s.cfg.outMax ∧ s.frame r = s.succeed v) := by
  by_cases ho : s.ovf = true
  · exact .inl ⟨ho, s.frame_ovf r ho⟩
  · have ho' : s.ovf = false := by simpa using ho
    match r with
    | .error k => exact .inr (.inl ⟨ho', k, rfl, s.frame_error k ho'⟩)
    | .ok v =>
      by_cases hv : v.length ≤ s.cfg.outMax
      · exact .inr (.inr (.inr ⟨ho', v, rfl, hv, s.frame_fits v ho' hv⟩))
      · exact .inr (.inr (.inl ⟨ho', v, rfl, Nat.lt_of_not_le hv, s.frame_too_long v ho' (Nat.lt_of_not_le hv)⟩))

/-- The frame is `settle` at some outcome other than `IDLE`, with an output only in `DONE`. -/
theorem State.frame_eq_settle (s : State) (r : Result Bytes) :
    (∃ k, s.frame r = s.settle .error (some k) []) ∨
    (∃ v, v.length ≤ s.cfg.outMax ∧ s.frame r = s.settle .done none v) := by
  rcases s.frame_cases r with ⟨-, h⟩ | ⟨-, k, -, h⟩ | ⟨-, v, -, -, h⟩ | ⟨-, v, -, hv, h⟩
  · exact .inl ⟨_, h⟩
  · exact .inl ⟨_, h⟩
  · exact .inl ⟨_, h⟩
  · exact .inr ⟨v, hv, h⟩

/-! ### exec and step -/

/-- Every command other than `CLR` is the frame around its function. -/
theorem exec_eq_frame (i : Instr) (s : State) (h : i ≠ .clr) :
    exec i s = .next ((s.advanceDraws (commandDraws i s)).frame
      (commandFunction i s.nextDraw s.key s.iv s.din)) := by
  cases i <;> first | rfl | exact absurd rfl h

theorem exec_clr (s : State) : exec .clr s = .next s.clear := rfl

/-- `step` with a pending event is that event, performed or refused. -/
theorem step_withEvent (s : State) (e : Event) :
    step (s.withEvent e) = match e.illFormed with
      | some r => .refused r
      | none => perform e s := rfl

theorem step_idle (s : State) (h : s.bus = []) : step s = .next s := by
  simp [step, State.fetch, h]

/-- What a step that answers a next state can be: nothing pending, a reset, a read, a command word, or a write
to another register; an access is then an aligned 32-bit access of the block. -/
theorem step_cases {s t : State} (h : step s = .next t) :
    (s.bus = [] ∧ t = s) ∨
    ∃ e rest, s.bus = e :: rest ∧ e.illFormed = none ∧ perform e { s with bus := rest } = .next t := by
  unfold step State.fetch at h
  split at h
  · rename_i he
    split at he
    · exact .inl ⟨‹_›, by simpa using h.symm⟩
    · cases he
  · rename_i e s' he
    split at he
    · cases he
    · rename_i e' rest hb
      obtain ⟨rfl, rfl⟩ : e' = e ∧ _ := by simpa using he
      split at h
      · cases h
      · exact .inr ⟨_, rest, hb, ‹_›, h⟩

/-! ### Accesses and command words -/

/-- A pending event that was performed was a well-formed one. -/
theorem step_withEvent_next {s t : State} {e : Event} (h : step (s.withEvent e) = .next t) :
    e.illFormed = none ∧ perform e s = .next t := by
  rw [step_withEvent] at h
  split at h
  · cases h
  · exact ⟨‹_›, h⟩

/-- The sixteen offsets an access can have (20_memory.md rule R51). -/
theorem Event.offset_of_wellFormed {e : Event} {off size : Nat} (h : e.illFormed = none)
    (he : e = .read off size ∨ ∃ v, e = .write off size v) :
    off = 0x00 ∨ off = 0x04 ∨ off = 0x08 ∨ off = 0x0C ∨ off = 0x10 ∨ off = 0x14 ∨ off = 0x18 ∨ off = 0x1C ∨
    off = 0x20 ∨ off = 0x24 ∨ off = 0x28 ∨ off = 0x2C ∨ off = 0x30 ∨ off = 0x34 ∨ off = 0x38 ∨ off = 0x3C := by
  have key : off % 4 = 0 ∧ off < 64 := by
    rcases he with rfl | ⟨v, rfl⟩ <;>
    · simp only [Event.illFormed] at h
      split at h; · cases h
      split at h; · cases h
      split at h; · cases h
      omega
  obtain ⟨k, hk, rfl⟩ : ∃ k, k < 16 ∧ off = 4 * k := ⟨off / 4, by omega, by omega⟩
  interval_cases k <;> simp

/-- Every command answers a next state. -/
theorem exec_next (i : Instr) (s : State) : ∃ t, exec i s = .next t := by cases i <;> exact ⟨_, rfl⟩

/-- Every well-formed event answers a next state (10_state.md rule R29). -/
theorem perform_next (e : Event) (s : State) : ∃ t, perform e s = .next t := by
  cases e with
  | reset => exact ⟨_, rfl⟩
  | read => exact ⟨_, rfl⟩
  | write off size v =>
    simp only [perform]
    cases Reg.atOffset off <;> try exact ⟨_, rfl⟩
    simp only [regWrite, commandWrite]
    split
    · exact exec_next _ _
    · exact ⟨_, rfl⟩

/-- A write to `CMD` settles, whatever the word, with at most a result of `OUT_MAX` bytes. -/
theorem commandWrite_settle (w : Word) (s : State) :
    ∃ n p e v, commandWrite w s = .next ((s.advanceDraws n).settle p e v) ∧ v.length ≤ s.cfg.outMax ∧
      (e ≠ none ↔ p = .error) ∧ (p ≠ .done → v = []) := by
  unfold commandWrite
  split
  · rename_i i _
    by_cases hi : i = .clr
    · subst hi; exact ⟨0, .idle, none, [], rfl, by simp, by simp, by simp⟩
    · rw [exec_eq_frame _ _ hi]
      rcases State.frame_eq_settle (s.advanceDraws (commandDraws i s))
        (commandFunction i s.nextDraw s.key s.iv s.din) with ⟨k, h⟩ | ⟨v, hv, h⟩ <;> rw [h]
      · exact ⟨_, _, _, _, rfl, by simp, by simp, by simp⟩
      · exact ⟨_, _, _, _, rfl, hv, by simp, by simp⟩
  · exact ⟨0, _, _, _, rfl, by simp, by simp, by simp⟩

end Sys2Proof.Machine
end

