-- ==== Sys2Proof/Laws/Padding.lean ====
section
/-! SUPPORT. The padding count, trailing zero bytes, and a sequence cut before its last bytes. -/

namespace Sys2Proof.Machine

@[simp] theorem rep_length (b : Byte) (n : Nat) : (rep b n).length = n := by simp [rep]

/-- The count of the self-describing schemes is 1 to 8 (43_padding.md rule R191). -/
theorem padCount_range (n : Nat) : 1 ≤ padCount n ∧ padCount n ≤ 8 := by simp [padCount]; omega

theorem byteOf_toNat {n : Nat} (h : n ≤ 8) : (byteOf n).toNat = n := by
  simp [byteOf]; omega

/-- `stripZeros` removes exactly the trailing zero bytes (rule R197). -/
theorem stripZeros_spec (x : Bytes) : ∃ v n, x = v ++ rep 0#8 n ∧ v.getLast? ≠ some 0#8 ∧ stripZeros x = v := by
  refine ⟨stripZeros x, (x.rtakeWhile (· == 0#8)).length, ?_, ?_, rfl⟩
  · have h1 := List.rdropWhile_append_rtakeWhile (p := (· == (0#8 : Byte))) (l := x)
    conv_lhs => rw [← h1]
    congr 1
    rw [rep, List.eq_replicate_iff]
    refine ⟨rfl, fun b hb => ?_⟩
    have := List.mem_rtakeWhile_imp hb
    simpa using this
  · intro h
    have hne : stripZeros x ≠ [] := by intro h0; rw [h0] at h; simp at h
    have := List.rdropWhile_last_not (p := (· == (0#8 : Byte))) (l := x) hne
    rw [List.getLast?_eq_getLast_of_ne_nil hne] at h
    simp at h this
    exact this h

/-- Zero fill is lost (rule R198). -/
theorem stripZeros_append (p : Bytes) (n : Nat) : stripZeros (p ++ rep 0#8 n) = stripZeros p := by
  induction n with
  | zero => simp [rep]
  | succ n ih =>
    rw [stripZeros, rep, List.replicate_succ', ← List.append_assoc, List.rdropWhile_concat_pos]
    · exact ih
    · simp

/-- A sequence is what stands before its last `n` bytes, and those. -/
theorem take_append_last (x : Bytes) (n : Nat) (h : n ≤ x.length) : x = x.take (x.length - n) ++ x.drop (x.length - n) ∧ (x.drop (x.length - n)).length = n := by
  constructor
  · rw [List.take_append_drop]
  · rw [List.length_drop]; omega

/-- The two parts of an append, taken by their lengths. -/
theorem parts_of_append (v f : Bytes) : (v ++ f).take ((v ++ f).length - f.length) = v ∧ (v ++ f).drop ((v ++ f).length - f.length) = f := by
  have : (v ++ f).length - f.length = v.length := by simp
  rw [this]; simp

/-- The last byte of the last `n` bytes. -/
theorem getLastD_drop (x : Bytes) (n : Nat) (h1 : 1 ≤ n) (h : n ≤ x.length) : (x.drop (x.length - n)).getLastD 0#8 = x.getLastD 0#8 := by
  have : x ≠ [] := by intro h0; subst h0; simp at h; omega
  rw [List.getLastD_eq_getLast?, List.getLastD_eq_getLast?, List.getLast?_drop]
  rw [if_neg (by omega)]

end Sys2Proof.Machine
end

