-- ==== Sys2Proof/Laws/PerInstr.lean ====
section
/-! SUPPORT. A property of every command as syntax, one lemma per constructor: its word selects its row of the
opcode table (30_encoding.md rule R84). -/

namespace Sys2Proof.Laws.TableRow

/-- The command's word lies in the row of the opcode table that its `OP` numbers, and in no other. -/
def Statement (i : Instr) : Prop := ∀ n, n < 8 → (rowSelects n (encode i) = true ↔ n = i.opcode)

theorem clr : Statement .clr := by unfold Statement; decide

theorem b64e : Statement .b64e := by unfold Statement; decide

theorem b64d : Statement .b64d := by unfold Statement; decide

theorem kdf (hash ksize : Bool) : Statement (.kdf hash ksize) := by
  unfold Statement; revert hash ksize; decide

theorem enc (mode pad : BitVec 3) (hash ksize text : Bool) : Statement (.enc mode pad hash ksize text) := by
  unfold Statement; revert mode pad hash ksize text; decide +kernel

theorem dec (mode pad : BitVec 3) (hash ksize text : Bool) : Statement (.dec mode pad hash ksize text) := by
  unfold Statement; revert mode pad hash ksize text; decide +kernel

theorem pwenc : Statement .pwenc := by unfold Statement; decide

theorem pwdec : Statement .pwdec := by unfold Statement; decide

end Sys2Proof.Laws.TableRow
end

