-- ==== Sys2Proof/Tests/Slice0.lean ====
section
/-! SUPPORT. Tests. Expected values are those of spec/95_test_vectors.md or read from a rule by hand; each test
names its source. Then, for every statement of Certificates/Slice0/Obligations.lean that has hypotheses, a
concrete state and operands that meet them. -/

namespace Sys2Proof.Tests

open Sys2Proof Sys2Proof.Machine

/-- Bytes from their values. -/
def bytes (l : List Nat) : Bytes := l.map (BitVec.ofNat 8)

/-- "12345678" -/
def digits : Bytes := bytes [0x31, 0x32, 0x33, 0x34, 0x35, 0x36, 0x37, 0x38]

/-- "abcdefg" -/
def letters : Bytes := bytes [0x61, 0x62, 0x63, 0x64, 0x65, 0x66, 0x67]

/-- 00 01 .. 07 -/
def counting : Bytes := bytes [0, 1, 2, 3, 4, 5, 6, 7]

/-- "password" -/
def password : Bytes := bytes [0x70, 0x61, 0x73, 0x73, 0x77, 0x6F, 0x72, 0x64]

/-- The ciphertext of "abcdefg" padded by PKCS7, under "12345678" (95 section 2.8). -/
def sealed : Bytes := bytes [0x48, 0x6C, 0xB8, 0xB8, 0x1C, 0xAC, 0xCD, 0xB7]

/-- "SGy4uByszbc=", the text of `sealed` (95 section 2.9). -/
def sealedText : Bytes := bytes [0x53, 0x47, 0x79, 0x34, 0x75, 0x42, 0x79, 0x73, 0x7A, 0x62, 0x63, 0x3D]

/-- The reset state with operands. -/
def loaded (key iv din : Bytes) : State := { State.reset with key := key, iv := iv, din := din }

/-- The reset state of the small instance of program P4. -/
def small (key din : Bytes) : State :=
  { State.resetWith { keyMax := 24, ivMax := 8, inMax := 16, outMax := 16 } with key := key, din := din }

/-- What the host sees of an outcome: `STATUS` as a number and `DOUT`. -/
def seen : Host.Outcome State Fault Refusal → Option (Nat × Bytes)
  | .next t => some (t.statusWord.toNat, t.dout)
  | .fault _ => none
  | .refused _ => none

/-- The same after a command word written to `CMD`. -/
def run (w : Nat) (key iv din : Bytes) : Option (Nat × Bytes) :=
  seen (step ((loaded key iv din).withFetchWord 32 w))

/-! ### Ill-formed terms -/

theorem test_config_reference : Config.reference.wellFormed = true := by decide

/-- Each bound of 00_scope.md rule R6, just missed. -/
theorem test_config_ill_formed :
    Config.wellFormed { keyMax := 23, ivMax := 8, inMax := 1, outMax := 1 } = false ∧
    Config.wellFormed { keyMax := 2 ^ 32, ivMax := 8, inMax := 1, outMax := 1 } = false ∧
    Config.wellFormed { keyMax := 24, ivMax := 7, inMax := 1, outMax := 1 } = false ∧
    Config.wellFormed { keyMax := 24, ivMax := 2 ^ 32, inMax := 1, outMax := 1 } = false ∧
    Config.wellFormed { keyMax := 24, ivMax := 8, inMax := 0, outMax := 1 } = false ∧
    Config.wellFormed { keyMax := 24, ivMax := 8, inMax := 2 ^ 32, outMax := 1 } = false ∧
    Config.wellFormed { keyMax := 24, ivMax := 8, inMax := 1, outMax := 0 } = false ∧
    Config.wellFormed { keyMax := 24, ivMax := 8, inMax := 1, outMax := 2 ^ 32 } = false ∧
    Config.wellFormed { keyMax := 24, ivMax := 8, inMax := 1, outMax := 1 } = true := by decide

/-- Each check on an access (20_memory.md rule R51). -/
theorem test_event_ill_formed :
    (Event.read 0x04 2).illFormed = some .accessNotWord ∧
    (Event.write 0x22 4 0#32).illFormed = some .accessMisaligned ∧
    (Event.read 0x40 4).illFormed = some .accessOutsideBlock ∧
    (Event.read 0x3C 4).illFormed = none ∧ Event.reset.illFormed = none := by decide

/-! ### Decoding: fields written out in the order TEXT, KSIZE, HASH, PAD, MODE, OP (30_encoding.md rule R81) -/

theorem test_decode_clr : decode (0#19 ++ 0#1 ++ 0#1 ++ 0#1 ++ 0b000#3 ++ 0b000#3 ++ 0b0000#4) = .ok .clr := by decide
theorem test_decode_b64e : decode (0#19 ++ 0#1 ++ 0#1 ++ 0#1 ++ 0b000#3 ++ 0b000#3 ++ 0b0001#4) = .ok .b64e := by decide
theorem test_decode_b64d : decode (0#19 ++ 0#1 ++ 0#1 ++ 0#1 ++ 0b000#3 ++ 0b000#3 ++ 0b0010#4) = .ok .b64d := by decide
/-- `KDF hash=1`: 0x00000403 (95 section 2.1). -/
theorem test_decode_kdf :
    decode (0#19 ++ 0#1 ++ 0#1 ++ 1#1 ++ 0b000#3 ++ 0b000#3 ++ 0b0011#4) = .ok (.kdf true false) ∧
    decode 0x00000403#32 = .ok (.kdf true false) ∧ decode 0x00000803#32 = .ok (.kdf false true) := by decide
/-- `ENC mode=CFB, pad=ANSIX923, hash=1`: 0x000005A4 (95 section 2.1). -/
theorem test_decode_enc :
    decode (0#19 ++ 0#1 ++ 0#1 ++ 1#1 ++ 0b011#3 ++ 0b010#3 ++ 0b0100#4) = .ok (.enc 2#3 3#3 true false false) ∧
    decode 0x000005A4#32 = .ok (.enc 2#3 3#3 true false false) := by decide
/-- `DEC mode=CTS, pad=ISO10126, hash=1, ksize=24, text=1`: 0x00001E45 (95 section 2.1). -/
theorem test_decode_dec :
    decode (0#19 ++ 1#1 ++ 1#1 ++ 1#1 ++ 0b100#3 ++ 0b100#3 ++ 0b0101#4) = .ok (.dec 4#3 4#3 true true true) ∧
    decode 0x00001E45#32 = .ok (.dec 4#3 4#3 true true true) := by decide
theorem test_decode_pwenc : decode (0#19 ++ 0#1 ++ 0#1 ++ 0#1 ++ 0b000#3 ++ 0b000#3 ++ 0b0110#4) = .ok .pwenc := by decide
theorem test_decode_pwdec : decode (0#19 ++ 0#1 ++ 0#1 ++ 0#1 ++ 0b000#3 ++ 0b000#3 ++ 0b0111#4) = .ok .pwdec := by decide

/-- The words that are no commands (95 section 2.1). -/
theorem test_decode_illegal :
    ∀ w ∈ [0x8, 0x9, 0xA, 0xF, 0x10, 0x11, 0x1001, 0x17, 0x406, 0x1006, 0x13, 0x83, 0x1003, 0x2000, 0x80000004, 0x1FFF],
      decodeTableWord 32 w = none := by decide

/-! ### Commands, at most two tests each (95 sections 2.2 to 2.10) -/

/-- Section 2.10: `CLR` ignores and clears `OVF`. -/
theorem test_clr : seen (exec .clr { loaded digits [] letters with ovf := true }) = some (0x0, []) := by decide

/-- "foob" gives "Zm9vYg==". -/
theorem test_b64e_short_group : run 0x1 [] [] (bytes [0x66, 0x6F, 0x6F, 0x62]) =
    some (0x1, bytes [0x5A, 0x6D, 0x39, 0x76, 0x59, 0x67, 0x3D, 0x3D]) := by decide +kernel

/-- P4 step 3: 13 bytes give 20 characters, more than 16. -/
theorem test_b64e_too_long : seen (exec .b64e (small [] (rep 0x41#8 13))) = some (0x82, []) := by decide +kernel

/-- "+/8=" gives FB FF. -/
theorem test_b64d : run 0x2 [] [] (bytes [0x2B, 0x2F, 0x38, 0x3D]) = some (0x1, bytes [0xFB, 0xFF]) := by decide +kernel

/-- "Zh==": an unused bit is set. -/
theorem test_b64d_unused_bits : run 0x2 [] [] (bytes [0x5A, 0x68, 0x3D, 0x3D]) = some (0x42, []) := by decide +kernel

/-- `KDF hash=1, ksize=24` of "password": H128 and its first eight bytes again. -/
theorem test_kdf_hash : run 0xC03 password [] [] = some (0x1,
    bytes [0x5F, 0x4D, 0xCC, 0x3B, 0x5A, 0xA7, 0x65, 0xD6, 0x1D, 0x83, 0x27, 0xDE, 0xB8, 0x82, 0xCF, 0x99,
           0x5F, 0x4D, 0xCC, 0x3B, 0x5A, 0xA7, 0x65, 0xD6]) := by decide +kernel

/-- A raw key of seven bytes. -/
theorem test_kdf_length : run 0x3 (digits.take 7) [] [] = some (0x12, []) := by decide

/-- KODEN's scenario (95 S10, P1). -/
theorem test_enc_ecb_pkcs7 : run 0x104 digits [] letters = some (0x1, sealed) := by decide +kernel

/-- `ENC mode=CTS, pad=NONE` of "abcdefghi". -/
theorem test_enc_cts : run 0x44 digits counting (letters ++ bytes [0x68, 0x69]) =
    some (0x1, bytes [0xC8, 0x77, 0x26, 0xEF, 0x05, 0x1A, 0x20, 0x1E, 0x5F]) := by decide +kernel

/-- `DEC mode=CTS, pad=NONE` of the same nine bytes (44_modes.md rule R219). -/
theorem test_dec_cts : run 0x45 digits counting (bytes [0xC8, 0x77, 0x26, 0xEF, 0x05, 0x1A, 0x20, 0x1E, 0x5F]) =
    some (0x1, letters ++ bytes [0x68, 0x69]) := by decide +kernel

/-- One flipped byte: the padding is not valid (95 S7). -/
theorem test_dec_bad_padding : run 0x105 digits [] (bytes [0x49, 0x6C, 0xB8, 0xB8, 0x1C, 0xAC, 0xCD, 0xB7]) =
    some (0x52, []) := by decide +kernel

/-- `PWENC` of "abcdefg". -/
theorem test_pwenc : run 0x6 digits [] letters = some (0x1, sealedText) := by decide +kernel

/-- No password: the data passes through (95 section 2.9). -/
theorem test_pwenc_pass_through : run 0x6 [] [] letters = some (0x1, letters) := by decide

/-- `PWDEC` under "02345678", which differs from "12345678" in a parity bit only. -/
theorem test_pwdec_parity : run 0x7 (0x30#8 :: digits.tail) [] sealedText = some (0x1, letters) := by decide +kernel

/-- `PWDEC` under the wrong password "87654321". -/
theorem test_pwdec_wrong : run 0x7 digits.reverse [] sealedText = some (0x52, []) := by decide +kernel

/-! ### Registers (95 section 2.10) -/

/-- `WR KEYPUSH, 0xFFFFFF41` pushes 41. -/
theorem test_push_low_byte :
    afterEvents State.reset [.write 0x18 4 0xFFFFFF41#32, .read 0x08 4] =
      some { State.reset with key := [0x41#8], rdata := 1#32 } := by decide

/-- Three bytes popped, then one too many: 0x00, and `STATUS` 0x201. -/
theorem test_pop_too_many :
    (afterEvents { State.reset with phase := .done, dout := bytes [0x66, 0x6F, 0x6F] }
      (List.replicate 4 (.read 0x24 4))).map (fun t => (t.rdata, t.statusWord)) = some (0x00#32, 0x201#32) := by decide

/-! ### Block functions (95 section 2.4) -/

theorem test_des : desEnc (bytes [0x13, 0x34, 0x57, 0x79, 0x9B, 0xBC, 0xDF, 0xF1])
    (bytes [0x01, 0x23, 0x45, 0x67, 0x89, 0xAB, 0xCD, 0xEF]) =
    bytes [0x85, 0xE8, 0x13, 0x54, 0x0F, 0x0A, 0xB4, 0x05] := by decide +kernel

theorem test_tdea : tdeaEnc (bytes [0x01, 0x23, 0x45, 0x67, 0x89, 0xAB, 0xCD, 0xEF, 0x23, 0x45, 0x67, 0x89, 0xAB, 0xCD,
      0xEF, 0x01, 0x45, 0x67, 0x89, 0xAB, 0xCD, 0xEF, 0x01, 0x23])
    (bytes [0x4E, 0x6F, 0x77, 0x20, 0x69, 0x73, 0x20, 0x74]) =
    bytes [0x31, 0x4F, 0x83, 0x27, 0xFA, 0x7A, 0x09, 0xA8] := by decide +kernel

/-! ### Witnesses: the hypotheses of each statement, met by concrete states and operands -/

/-- A state with the command word `w` as the next access. -/
def pending (w : Nat) : State := State.reset.withFetchWord 32 w

/-- A state that failed, and one with a result (rule R25). -/
def failed : State := { State.reset with phase := .error, err := some .bufferOverflow }
def succeeded : State := { State.reset with phase := .done, dout := bytes [0x66, 0x6F] }

theorem witness_step_runs_the_decoded_command :
    (pending 0x104).bus = .write 0x00 4 0x104#32 :: [] ∧ decode 0x104#32 = .ok (.enc 0#3 2#3 false false false) ∧
    (pending 0x10).bus = .write 0x00 4 0x10#32 :: [] ∧ decode 0x10#32 = .error .unusedField ∧
    decodeTableWord 32 0xC03 = some (.kdf true true) := by decide

theorem witness_status_word_layout :
    State.reset.Inv ∧ failed.Inv ∧ succeeded.Inv ∧ failed.statusWord.extractLsb' 0 2 ≠ 1#2 := by decide

theorem witness_length_registers : succeeded.Inv ∧ succeeded.dout ≠ [] := by decide

/-- A buffer with room for one byte more, and a full one (rule R27). -/
theorem witness_push :
    Instr.b64e ≠ .clr ∧
    (small (rep 0#8 23) (rep 0#8 15)).key.length < (small (rep 0#8 23) (rep 0#8 15)).cfg.keyMax ∧
    ¬ (small (rep 0#8 24) (rep 0#8 16)).key.length < (small (rep 0#8 24) (rep 0#8 16)).cfg.keyMax := by decide

theorem witness_pop :
    succeeded.dout = 0x66#8 :: [0x6F#8] ∧ { succeeded with dout := [] }.dout = [] ∧
    failed.Inv ∧ failed.phase ≠ .done ∧ State.reset.Inv ∧ State.reset.phase ≠ .done := by decide

theorem witness_reserved_offsets :
    0x28 ∈ [0x28, 0x2C, 0x30, 0x34, 0x38, 0x3C] ∧ 0x3C % 4 = 0 ∧ 0x3C < 64 ∧ 0 % 4 = 0 := by decide

theorem witness_sticky_flags :
    (∃ t, step (State.reset.withEvent .reset) = .next t) ∧
    (∃ t, step (State.reset.withEvent (.read 0x24 4)) = .next t) ∧
    (∃ t, step ((small (rep 0#8 24) []).withEvent (.write 0x18 4 0#32)) = .next t) ∧
    (∃ t, step (State.reset.withEvent (.write 0x00 4 0x10#32)) = .next t) ∧
    ({ State.reset with ovf := true }.ovf = true ∧ Instr.pwdec ≠ .clr) :=
  ⟨⟨_, rfl⟩, ⟨_, rfl⟩, ⟨_, rfl⟩, ⟨_, rfl⟩, by decide⟩

theorem witness_state_transitions :
    (∃ t, step (failed.withEvent .reset) = .next t) ∧
    (0x18 ≠ 0x00 ∧ ∃ t, step (failed.withEvent (.write 0x18 4 0#32)) = .next t) ∧
    (∃ t, step (failed.withEvent (.read 0x24 4)) = .next t) :=
  ⟨⟨_, rfl⟩, ⟨by decide, ⟨_, rfl⟩⟩, ⟨_, rfl⟩⟩

theorem witness_reset_values : State.resetWith Config.reference ∈ [State.resetWith Config.reference] := by decide

/-- Widths around 4 bytes, offsets around a multiple of 4, and the two sides of the block's end. -/
theorem witness_only_aligned :
    Event.read 0x3C 3 ∈ [Event.read 0x3C 3, Event.write 0x3C 3 0#32] ∧ 3 ≠ 4 ∧ 5 ≠ 4 ∧
    (4 = 4 ∧ 0x3D % 4 ≠ 0 ∧ 0x3F % 4 ≠ 0) ∧ (0x40 % 4 = 0 ∧ 64 ≤ 0x40) ∧ (0x3C % 4 = 0 ∧ 0x3C < 64) := by decide

theorem witness_access_frame :
    (∃ t, step (succeeded.withEvent (.read 0x04 4)) = .next t) ∧
    (∃ t, step (succeeded.withEvent (.read 0x24 4)) = .next t) ∧
    (∃ t, step (succeeded.withEvent (.write 0x18 4 0x41#32)) = .next t) ∧
    (∃ t, step (succeeded.withEvent (.write 0x1C 4 0x41#32)) = .next t) ∧
    (∃ t, step (succeeded.withEvent (.write 0x20 4 0x41#32)) = .next t) ∧
    (∃ t, step (succeeded.withEvent (.write 0x24 4 0x41#32)) = .next t) ∧ 0x24 ∉ [0x00, 0x18, 0x1C, 0x20] ∧
    (∃ t, step (succeeded.withEvent (.write 0x00 4 0x104#32)) = .next t) ∧
    (∀ mc hash ksize text, decode 0x104#32 ≠ .ok (.enc mc 4#3 hash ksize text)) :=
  ⟨⟨_, rfl⟩, ⟨_, rfl⟩, ⟨_, rfl⟩, ⟨_, rfl⟩, ⟨_, rfl⟩, ⟨_, rfl⟩, by decide, ⟨_, rfl⟩, by decide⟩

/-- `DIN` filled to its capacity, the last byte of `DOUT`, two push registers. -/
theorem witness_buffers :
    (small [] (rep 0#8 9)).din.length + letters.length ≤ (small [] (rep 0#8 9)).cfg.inMax ∧
    1 < succeeded.dout.length ∧ 0x18 ∈ [0x18, 0x1C, 0x20] ∧ 0x20 ∈ [0x18, 0x1C, 0x20] ∧ 0x18 ≠ 0x20 := by decide

theorem witness_decode_of_encode : (Instr.dec 7#3 7#3 true true true).wellFormed = true := by decide

theorem witness_decoded_word : decode 0x1FF5#32 = .ok (.dec 7#3 7#3 true true true) := by decide

theorem witness_opcode_rows : (0 < 8 ∧ 7 < 8) ∧ rowSelects 3 0xC03#32 = true ∧ rowSelects 7 7#32 = true := by decide

/-- One word for each reason, and both words at the edge of `OP`. -/
theorem witness_illegal_words :
    decode 0x2000#32 = .error .reservedBits ∧ decode 0x8#32 = .error .reservedOp ∧
    decode 0x17#32 = .error .unusedField ∧ decode 0x1003#32 = .error .unusedField := by decide

/-- Reserved mode 5, reserved padding 5, CTS with a padding; and `KDF` with `MODE` set. -/
theorem witness_reserved_configuration :
    State.reset.ovf = false ∧ 5 ≤ (5#3 : BitVec 3).toNat ∧ ((4#3 : BitVec 3) = 4#3 ∧ (1#3 : BitVec 3) ≠ 0#3) ∧
    ((0x13#32).extractLsb' 0 4 ≠ 4#4 ∧ (0x13#32).extractLsb' 0 4 ≠ 5#4 ∧ (0x13#32).extractLsb' 4 6 ≠ 0#6) := by decide

theorem witness_alphabet : b64val 0x2F#8 = some 63#6 ∧ b64val 0x41#8 = some 0#6 := by decide

/-- Four bytes have two groups, the last of one byte. -/
theorem witness_encoded_groups : 1 < ((letters.take 4).length + 2) / 3 ∧ 1 = min 3 ((letters.take 4).length - 3 * 1) := by
  decide

theorem witness_codec_round_trip : b64dec sealedText = .ok sealed := by decide +kernel

/-- A result that just fits, one byte too many, and the word 0x00000011. -/
theorem witness_b64e :
    (4 * (((small [] (rep 0#8 12)).din.length + 2) / 3) ≤ (small [] (rep 0#8 12)).cfg.outMax) ∧
    ((small [] (rep 0#8 13)).cfg.outMax < 4 * (((small [] (rep 0#8 13)).din.length + 2) / 3)) ∧
    (small [] []).ovf = false ∧ ((0x11#32).extractLsb' 0 4).toNat = 1 ∧ (0x11#32 : Word) ≠ 1#32 := by decide

/-- No bytes have a text of one character. -/
theorem b64enc_ne_single (c : Byte) (b : Bytes) : [c] ≠ b64enc b := by
  match b with
  | [] => simp [b64enc]
  | [_] => simp [b64enc, encodeGroup]
  | [_, _] => simp [b64enc, encodeGroup]
  | _ :: _ :: _ :: _ => simp [b64enc, encodeGroup]

theorem witness_b64d :
    ((loaded [] [] sealedText).ovf = false ∧ (loaded [] [] sealedText).din = b64enc sealed ∧
      sealed.length ≤ (loaded [] [] sealedText).cfg.outMax) ∧
    (∀ b, (loaded [] [] [0x5A#8]).din ≠ b64enc b) ∧
    ((small [] (b64enc (rep 0#8 17))).din = b64enc (rep 0#8 17) ∧
      (small [] (b64enc (rep 0#8 17))).cfg.outMax < (rep 0#8 17).length) ∧
    ((0x12#32).extractLsb' 0 4).toNat = 2 ∧ (0x12#32 : Word) ≠ 2#32 :=
  ⟨by decide +kernel, fun b => b64enc_ne_single _ b, by decide, by decide⟩

/-- Both target lengths, an empty passphrase, a wrong length, and a result buffer that is too small. -/
theorem witness_kdf :
    (digits ≠ [] ∧ tlen true ≤ (loaded digits [] []).cfg.outMax ∧ digits.length = tlen false) ∧
    ((loaded [] [] []).key = [] ∧ (loaded (digits.take 7) [] []).key.length ≠ tlen false) ∧
    ((small (rep 0#8 24) []).key.length = tlen true ∧ (small (rep 0#8 24) []).cfg.outMax < tlen true) ∧
    (((0x13#32).extractLsb' 0 4).toNat = 3 ∧ (0x13#32).extractLsb' 4 6 ≠ 0#6) ∧
    ((0x1003#32).extractLsb' 12 20 ≠ 0#20) := by decide

theorem witness_des : letters.length = 7 ∧ digits.length = 8 ∧ counting.length = 8 := by decide

theorem witness_tdea : (digits ++ digits ++ digits).length = 24 ∧ counting.length = 8 ∧ (counting ++ counting).length = 16 := by
  decide

/-- "12345678" and "02345678" differ in the parity bit of their first byte. -/
theorem witness_parity :
    digits.length = 8 ∧ (0x30#8 :: digits.tail).length = digits.length ∧
    ∀ i : Nat, digits.getD i 0#8 >>> 1 = (0x30#8 :: digits.tail).getD i 0#8 >>> 1 := by
  refine ⟨by decide, by decide, fun i => ?_⟩
  by_cases h : i < 8
  · exact (by decide : ∀ i < 8, digits.getD i 0#8 >>> 1 = (0x30#8 :: digits.tail).getD i 0#8 >>> 1) i h
  · have h1 : digits.length ≤ i := Nat.le_of_not_lt h
    have h2 : (0x30#8 :: digits.tail).length ≤ i := Nat.le_of_not_lt h
    rw [List.getD_eq_default _ _ h1, List.getD_eq_default _ _ h2]

theorem witness_cipher_selected :
    modeOf 4#3 = some .cts ∧ paddingOf 0#3 = some .none ∧ Supported .cts .none ∧
    (loaded (digits.take 7) [] letters).key.length ≠ 8 ∧ (loaded (digits.take 7) [] letters).key.length ≠ 24 := by decide

/-- A plaintext of whole blocks (`r = 0`, `n = 8`) and one short of a block (`r = 7`, `n = 1`). -/
theorem witness_padding_layouts :
    (0 = digits.length % 8 ∧ 8 = 8 - 0) ∧ (7 = letters.length % 8 ∧ 1 = 8 - 7) ∧
    Padding.pkcs7 ∈ [Padding.pkcs7, .ansix923, .iso10126] := by decide

theorem witness_unpad :
    rep 0#8 8 ≠ [] ∧ (rep 0#8 8).length % 8 = 0 ∧ unpad .pkcs7 (rep 0#8 8) = .error .paddingValidationFailed ∧
    unpad .pkcs7 (letters ++ [0x01#8]) = .ok letters ∧ unpad .ansix923 (rep 0#8 7 ++ [0x08#8]) = .ok [] ∧
    unpad .iso10126 (letters ++ [0x01#8]) = .ok letters := by decide

theorem witness_unpad_inverts_pad : digits.length % 8 = 0 ∧ letters.getLast? ≠ some 0x00#8 := by decide

/-- IVs of no byte, seven and nine bytes (95 section 2.8). -/
theorem witness_iv_rule :
    Mode.cbc ≠ .ecb ∧ modeOf 1#3 = some .cbc ∧ paddingOf 2#3 = some .pkcs7 ∧ Supported .cbc .pkcs7 ∧
    KeyOk false (loaded digits [] letters).key ∧ KeyOk true (loaded password [] letters).key ∧
    (loaded digits [] letters).iv.length ≠ 8 ∧ (loaded digits (counting.take 7) letters).iv.length ≠ 8 ∧
    (loaded digits (counting ++ [8#8]) letters).iv.length ≠ 8 := by decide

/-- Two blocks: `j = 0` and `j = 1`. -/
theorem witness_blocks :
    counting.length = 8 ∧ (digits ++ counting).length % 8 = 0 ∧ 0 < (digits ++ counting).length / 8 ∧
    1 < (digits ++ counting).length / 8 := by decide

/-- Eight bytes (`d = 0`, `m = 1`) and nine bytes (`d = 1`, `m = 2`). -/
theorem witness_cts :
    (8 ≤ digits.length ∧ 0 = digits.length % 8 ∧ 1 = (digits.length + 7) / 8) ∧
    (8 ≤ (digits ++ [0#8]).length ∧ 1 = (digits ++ [0#8]).length % 8 ∧ 2 = ((digits ++ [0#8]).length + 7) / 8) ∧
    7 < 8 := by decide

/-- The same for decryption, and seventeen bytes (`m = 3`, so the block before the short one is `y_1`). -/
theorem witness_cts_decryption :
    (8 ≤ digits.length ∧ 0 = digits.length % 8 ∧ 1 = (digits.length + 7) / 8) ∧
    (8 ≤ (rep 0#8 9).length ∧ 1 = (rep 0#8 9).length % 8 ∧ 2 = ((rep 0#8 9).length + 7) / 8) ∧
    (1 = (rep 0#8 17).length % 8 ∧ 3 = ((rep 0#8 17).length + 7) / 8) := by decide

theorem witness_mode_round_trip :
    (digits.length = 8 ∨ digits.length = 24) ∧ (Mode.cts ≠ .ecb → counting.length = 8) ∧
    (Mode.cbc ≠ .cts → digits.length % 8 = 0) ∧ (Mode.cts = .cts → 8 ≤ (digits ++ [0#8]).length) := by decide

/-- "abcdefg" under ECB with PKCS7, and nine bytes under CTS; the text of one block just fits 12 bytes. -/
theorem witness_enc_completes :
    ((loaded digits [] letters).ovf = false ∧ modeOf 0#3 = some .ecb ∧ paddingOf 2#3 = some .pkcs7 ∧
      Supported .ecb .pkcs7 ∧ KeyOk false digits ∧ IvOk .ecb [] ∧ EncLengthOk .ecb .pkcs7 letters.length ∧
      encLength .pkcs7 true letters.length ≤ 12) ∧
    (modeOf 4#3 = some .cts ∧ paddingOf 0#3 = some .none ∧ Supported .cts .none ∧ KeyOk true password ∧
      IvOk .cts counting ∧ EncLengthOk .cts .none 8 ∧ encLength .none false 8 ≤ Config.reference.outMax) := by decide

theorem witness_dec_completes :
    (loaded digits [] sealedText).ovf = false ∧ modeOf 0#3 = some .ecb ∧ paddingOf 2#3 = some .pkcs7 ∧
    Supported .ecb .pkcs7 ∧ KeyOk false digits ∧ IvOk .ecb [] ∧
    (loaded digits [] sealedText).din = (if true then b64enc sealed else sealed) ∧ DecLengthOk .ecb sealed.length ∧
    unpad .pkcs7 (modeDec .ecb (effKey false false digits) [] sealed) = .ok letters ∧
    letters.length ≤ Config.reference.outMax := by decide +kernel

/-- `ENC` succeeded, under PKCS7 and under Zeros, and its result is the next `DIN`. -/
theorem witness_dec_of_enc :
    (∃ t, exec (.enc 0#3 2#3 false false false) (loaded digits [] letters) = .next t ∧ t.phase = .done ∧
      (loaded digits [] sealed).din = t.dout) ∧
    (∃ t, exec (.enc 0#3 1#3 false false false) (loaded digits [] (letters ++ [0#8])) = .next t ∧ t.phase = .done) ∧
    (loaded digits [] sealed).key = (loaded digits [] letters).key ∧
    (loaded digits [] sealed).iv = (loaded digits [] letters).iv ∧ (loaded digits [] sealed).ovf = false :=
  ⟨⟨_, rfl, by decide +kernel⟩, ⟨_, rfl, by decide +kernel⟩, by decide⟩

theorem witness_hashed_key : deriveKey (loaded password [] letters).key true false =
    .ok (bytes [0x5F, 0x4D, 0xCC, 0x3B, 0x5A, 0xA7, 0x65, 0xD6]) := by decide +kernel

/-- Each case of rule R261, at the lengths where they meet: seven, eight bytes of password; of texts, 12
characters fit 16 and 24 do not. -/
theorem witness_pwenc :
    ({ State.reset with ovf := true }.ovf = true ∧ ((0x16#32).extractLsb' 0 4).toNat = 6 ∧ (0x16#32 : Word) ≠ 6#32) ∧
    ((small [] letters).key = [] ∧ letters.length ≤ (small [] letters).cfg.outMax) ∧
    ((small [] (rep 0#8 17)).key = [] ∧ (small [] (rep 0#8 17)).cfg.outMax < (rep 0#8 17).length) ∧
    (letters ≠ [] ∧ digits.take 7 ≠ [] ∧ (digits.take 7).length ≠ 8) ∧
    (digits.length = 8 ∧ 4 * ((8 * (letters.length / 8 + 1) + 2) / 3) ≤ (small digits letters).cfg.outMax) ∧
    ((small digits digits).cfg.outMax < 4 * ((8 * (digits.length / 8 + 1) + 2) / 3)) := by decide

/-- Each case of rule R262. -/
theorem witness_pwdec :
    ((loaded digits [] []).din = [] ∧ (loaded [] [] letters).key = []) ∧
    ((small [] (rep 0#8 17)).key = [] ∧ (small [] (rep 0#8 17)).cfg.outMax < (rep 0#8 17).length) ∧
    (letters ≠ [] ∧ digits.take 7 ≠ [] ∧ (digits.take 7).length ≠ 8) ∧
    ((loaded digits [] [0x5A#8]).din ≠ [] ∧ ∀ y, (loaded digits [] [0x5A#8]).din ≠ b64enc y) ∧
    ((b64enc letters = b64enc letters) ∧ letters.length % 8 ≠ 0) ∧
    (rep 0#8 8 ≠ [] ∧ (rep 0#8 8).length % 8 = 0 ∧
      unpad .pkcs7 (modeDec .ecb digits (digits.take 8) (rep 0#8 8)) = .error .paddingValidationFailed) ∧
    (sealed ≠ [] ∧ sealedText = b64enc sealed ∧ sealed.length % 8 = 0 ∧
      unpad .pkcs7 (modeDec .ecb digits (digits.take 8) sealed) = .ok letters ∧
      letters.length ≤ Config.reference.outMax) ∧
    ({ loaded digits [] sealedText with cfg := { keyMax := 24, ivMax := 8, inMax := 16, outMax := 6 } }.cfg.outMax <
      letters.length) :=
  ⟨by decide, by decide, by decide, ⟨by decide, fun y => b64enc_ne_single _ y⟩, ⟨rfl, by decide⟩, by decide +kernel,
    by decide +kernel, by decide⟩

theorem witness_pwenc_equals_ecb : letters ≠ [] ∧ (loaded digits [] letters).key.length = 8 := by decide

theorem witness_pwdec_of_pwenc :
    ∃ t, exec .pwenc (loaded digits [] letters) = .next t ∧ t.phase = .done ∧
      (loaded digits [] sealedText).key = (loaded digits [] letters).key ∧ (loaded digits [] sealedText).din = t.dout ∧
      (loaded digits [] sealedText).ovf = false ∧
      (loaded digits [] letters).din.length ≤ (loaded digits [] sealedText).cfg.outMax :=
  ⟨_, rfl, by decide +kernel⟩

theorem witness_clr : ((0x10#32).extractLsb' 0 4).toNat = 0 ∧ (0x10#32 : Word) ≠ 0#32 := by decide

/-- A legal and an illegal word that end with a kind. -/
theorem witness_error_leaves_no_operand :
    (∃ t, step ((loaded digits [] letters).withEvent (.write 0x00 4 0x114#32)) = .next t ∧
      t.err = some .invalidIvLength) ∧
    (∃ t, step ((loaded digits [] letters).withEvent (.write 0x00 4 0x8#32)) = .next t ∧
      t.err = some .illegalCommand) :=
  ⟨⟨_, rfl, by decide⟩, ⟨_, rfl, by decide⟩⟩

theorem witness_kinds :
    (∃ t, exec (.enc 1#3 2#3 false false false) (loaded digits [] letters) = .next t ∧ t.err = some .invalidIvLength) ∧
    (∃ t, exec .b64d (loaded [] [] [0x5A#8]) = .next t ∧ t.err = some .malformedEncoding) :=
  ⟨⟨_, rfl, by decide⟩, ⟨_, rfl, by decide⟩⟩

/-- An error, a command without draws, and ISO10126 one byte short of a block. -/
theorem witness_only_iso_draws (draw : Nat → Byte) :
    commandFunction .b64d draw [] [] [0x5A#8] = .error .malformedEncoding ∧
    (∀ mc hash ksize text, Instr.pwenc ≠ .enc mc 4#3 hash ksize text) ∧ letters.length % 8 = 7 :=
  ⟨rfl, by simp, by decide⟩

/-- The smallest legal capacities of 00_scope.md rule R6. -/
theorem witness_invariant_at_reset :
    Config.wellFormed { keyMax := 24, ivMax := 8, inMax := 1, outMax := 1 } = true := by decide

theorem witness_invariant_kept :
    (succeeded.withEvent (.read 0x24 4)).Inv ∧ (∃ t, step (succeeded.withEvent (.read 0x24 4)) = .next t) ∧
    (failed.withEvent (.write 0x00 4 0#32)).Inv ∧ ∃ t, step (failed.withEvent (.write 0x00 4 0#32)) = .next t :=
  ⟨by decide, ⟨_, rfl⟩, by decide, ⟨_, rfl⟩⟩

end Sys2Proof.Tests
end

-- The proofs of the family 00_scope.md.
section
/-! PROOFS. The invariant of 00_scope.md rule R6 and 10_state.md rules R20, R25, R28, R31, at reset and across a
step, and the independence of a command from what an earlier one left (00_scope.md rule R3). -/

namespace Sys2Proof.Machine

/-! ### The invariant at reset -/

/-- In a reset state every clause but the first is about empty buffers and `IDLE`. -/
theorem State.inv_resetWith {c : Config} (hc : c.wellFormed = true) : (State.resetWith c).Inv := by
  simp [State.Inv, State.WithinCapacity, hc]

/-- Settles O59: the first part for every legal `c`, the second at log 4's capacities, which are legal. -/
theorem invariantHoldsAtReset : Obligations.InvariantHoldsAtReset :=
  ⟨fun _ => State.inv_resetWith, State.inv_resetWith (by decide)⟩

/-! ### The invariant across a step -/

/-- A reset event clears every component the invariant reads except the capacities. -/
theorem State.inv_hardReset {s : State} (h : s.Inv) : s.hardReset.Inv :=
  State.inv_resetWith h.1

/-- Where a command can end (rule R31's table) is inside the invariant, whatever the buffers held before. -/
theorem State.inv_settle {s : State} {p : Phase} {e : Option ErrKind} {v : Bytes}
    (hc : s.cfg.wellFormed = true) (hv : v.length ≤ s.cfg.outMax) (he : e ≠ none ↔ p = .error)
    (hp : p ≠ .done → v = []) : (s.settle p e v).Inv :=
  ⟨hc, ⟨Nat.zero_le _, Nat.zero_le _, Nat.zero_le _, hv⟩, he, hp⟩

/-- A pop shortens `DOUT` or leaves it, so it stays within capacity, and empty outside `DONE`. -/
theorem State.inv_afterRead {s : State} (r : Reg) (h : s.Inv) : (s.afterRead r).Inv := by
  by_cases hr : r = .doutpop
  · subst hr
    cases hd : s.dout with
    | nil =>
      rw [s.afterRead_doutpop_nil hd]
      exact h
    | cons b rest =>
      rw [s.afterRead_doutpop_cons hd]
      obtain ⟨hc, ⟨hkey, hiv, hdin, hdout⟩, herr, hidle⟩ := h
      have hrest : rest.length ≤ s.cfg.outMax := by
        rw [hd, List.length_cons] at hdout
        omega
      exact ⟨hc, ⟨hkey, hiv, hdin, hrest⟩, herr, fun hp => by simp [hidle hp] at hd⟩
  · rwa [s.afterRead_of_ne hr]

theorem State.inv_readReg {s : State} (r : Reg) (h : s.Inv) : (s.readReg r).Inv :=
  State.inv_afterRead r h

/-- A byte is appended only where there is room; a dropped byte changes only `OVF`, which the invariant does not
read. -/
theorem State.inv_pushKey {s : State} (b : Byte) (h : s.Inv) : (s.pushKey b).Inv := by
  rcases s.pushKey_cases b with ⟨hroom, heq⟩ | ⟨-, heq⟩ <;> rw [heq]
  · obtain ⟨hc, ⟨-, hiv, hdin, hdout⟩, hrest⟩ := h
    exact ⟨hc, ⟨by simpa using hroom, hiv, hdin, hdout⟩, hrest⟩
  · exact h

theorem State.inv_pushIv {s : State} (b : Byte) (h : s.Inv) : (s.pushIv b).Inv := by
  rcases s.pushIv_cases b with ⟨hroom, heq⟩ | ⟨-, heq⟩ <;> rw [heq]
  · obtain ⟨hc, ⟨hkey, -, hdin, hdout⟩, hrest⟩ := h
    exact ⟨hc, ⟨hkey, by simpa using hroom, hdin, hdout⟩, hrest⟩
  · exact h

theorem State.inv_pushDin {s : State} (b : Byte) (h : s.Inv) : (s.pushDin b).Inv := by
  rcases s.pushDin_cases b with ⟨hroom, heq⟩ | ⟨-, heq⟩ <;> rw [heq]
  · obtain ⟨hc, ⟨hkey, hiv, -, hdout⟩, hrest⟩ := h
    exact ⟨hc, ⟨hkey, hiv, by simpa using hroom, hdout⟩, hrest⟩
  · exact h

theorem State.inv_writeReg {s : State} (r : Reg) (v : Word) (h : s.Inv) : (s.writeReg r v).Inv := by
  cases r with
  | keypush => exact State.inv_pushKey _ h
  | ivpush => exact State.inv_pushIv _ h
  | dinpush => exact State.inv_pushDin _ h
  | cmd | status | keylen | ivlen | dinlen | doutlen | doutpop | reserved => exact h

/-- Of the state before a command word the invariant after it needs only that the capacities were legal. -/
theorem inv_of_commandWrite {w : Word} {s t : State} (hc : s.cfg.wellFormed = true)
    (h : commandWrite w s = .next t) : t.Inv := by
  obtain ⟨n, p, e, v, hw, hv, he, hp⟩ := commandWrite_settle w s
  rw [hw] at h
  cases h
  exact State.inv_settle hc hv he hp

theorem inv_of_regWrite {r : Reg} {v : Word} {s t : State} (hs : s.Inv) (h : regWrite r v s = .next t) :
    t.Inv := by
  cases r with
  | cmd => exact inv_of_commandWrite hs.1 h
  | status | keylen | ivlen | dinlen | doutlen | keypush | ivpush | dinpush | doutpop | reserved =>
    cases h
    exact State.inv_writeReg _ v hs

theorem inv_of_perform {e : Event} {s t : State} (hs : s.Inv) (h : perform e s = .next t) : t.Inv := by
  cases e with
  | reset =>
    cases h
    exact State.inv_hardReset hs
  | read off size =>
    cases h
    exact State.inv_readReg _ hs
  | write off size v => exact inv_of_regWrite hs h

/-- Settles O60, by the event the step performs; taking it off `State.bus` touches nothing the invariant reads. -/
theorem everyStepKeepsTheInvariant : Obligations.EveryStepKeepsTheInvariant := by
  intro s t hs h
  rcases step_cases h with ⟨-, rfl⟩ | ⟨e, rest, -, -, hperform⟩
  · exact hs
  · exact inv_of_perform (s := { s with bus := rest }) hs hperform

/-! ### What an earlier command left -/

section
variable (s : State) (d : Bytes) (p : Phase) (e : Option ErrKind) (u : Bool)

/-- `settle` overwrites all four components an earlier command leaves (rule R90). -/
theorem State.settle_earlier (p' : Phase) (e' : Option ErrKind) (v : Bytes) :
    { s with dout := d, phase := p, err := e, udf := u }.settle p' e' v = s.settle p' e' v := rfl

/-- The frame decides by `OVF`, the capacity and the result alone, then settles. -/
theorem State.frame_earlier (r : Result Bytes) :
    { s with dout := d, phase := p, err := e, udf := u }.frame r = s.frame r := by
  simp only [State.frame, State.takeError_eq_settle, State.succeed_eq_settle, State.settle_earlier]

/-- How many bytes a command draws is decided by `OVF` and the operands. -/
theorem commandDraws_earlier (i : Instr) :
    commandDraws i { s with dout := d, phase := p, err := e, udf := u } = commandDraws i s := by
  cases i <;> rfl

end

/-- Settles O57: the operands, the draws and the frame are all that a command other than `CLR` reads, and none of
them reads what an earlier command left. -/
theorem outcomeIndependentOfEarlierCommands : Obligations.OutcomeIndependentOfEarlierCommands := by
  intro i s d p e u
  by_cases hi : i = .clr
  · subst hi
    rfl
  · rw [exec_eq_frame i _ hi, exec_eq_frame i s hi, commandDraws_earlier]
    exact congrArg _ (State.frame_earlier (s.advanceDraws (commandDraws i s)) d p e u _)

end Sys2Proof.Machine
end

-- The proofs of the family 10_state.md.
section
/-! PROOFS. What one access of the register block does (10_state.md rules R23 to R29), the fields of `STATUS` (rule
R25), what moves the sticky flags, `STATE` and `ERR` (rules R30, R31), and reset (rule R40). -/

namespace Sys2Proof.Machine

/-! ### Registers and offsets -/

/-- Where a register stands (rule R23); of the reserved slots, the first. -/
def Reg.offset : Reg → Nat
  | .cmd => 0x00
  | .status => 0x04
  | .keylen => 0x08
  | .ivlen => 0x0C
  | .dinlen => 0x10
  | .doutlen => 0x14
  | .keypush => 0x18
  | .ivpush => 0x1C
  | .dinpush => 0x20
  | .doutpop => 0x24
  | .reserved => 0x28

theorem Reg.offset_atOffset {off : Nat} (h : Reg.atOffset off ≠ .reserved) : (Reg.atOffset off).offset = off := by
  unfold Reg.atOffset at h ⊢
  split at h
  case h_11 => exact absurd rfl h
  all_goals rfl

/-- A register that is no reserved slot answers at its own offset only. -/
theorem Reg.atOffset_ne {off : Nat} {r : Reg} (hr : r ≠ .reserved) (h : off ≠ r.offset) : Reg.atOffset off ≠ r := by
  rintro rfl
  exact h (Reg.offset_atOffset hr).symm

/-! ### What a read and a write do to the state -/

/-- A read moves at most `DOUT` and `UDF`. -/
theorem State.afterRead_frame (s : State) (r : Reg) : ∃ d u, s.afterRead r = { s with dout := d, udf := u } := by
  by_cases hr : r = .doutpop
  · subst hr
    cases hd : s.dout with
    | nil => exact ⟨s.dout, true, s.afterRead_doutpop_nil hd⟩
    | cons b rest => exact ⟨rest, s.udf, s.afterRead_doutpop_cons hd⟩
  · exact ⟨s.dout, s.udf, s.afterRead_of_ne hr⟩

@[simp] theorem State.afterRead_phase (s : State) (r : Reg) : (s.afterRead r).phase = s.phase := by
  obtain ⟨d, u, h⟩ := s.afterRead_frame r
  rw [h]

@[simp] theorem State.afterRead_err (s : State) (r : Reg) : (s.afterRead r).err = s.err := by
  obtain ⟨d, u, h⟩ := s.afterRead_frame r
  rw [h]

@[simp] theorem State.afterRead_ovf (s : State) (r : Reg) : (s.afterRead r).ovf = s.ovf := by
  obtain ⟨d, u, h⟩ := s.afterRead_frame r
  rw [h]

theorem State.afterRead_doutpop_udf (s : State) : (s.afterRead .doutpop).udf = (s.udf || s.dout.isEmpty) := by
  cases hd : s.dout with
  | nil => simp [s.afterRead_doutpop_nil hd]
  | cons b rest => simp [s.afterRead_doutpop_cons hd]

theorem State.readReg_of_ne (s : State) {r : Reg} (h : r ≠ .doutpop) :
    s.readReg r = { s with rdata := s.regValue r } := by
  rw [State.readReg, s.afterRead_of_ne h]

/-- The buffer a push register appends to is the only one it can move, and `OVF` the only flag. -/
theorem State.writeReg_frame (s : State) (r : Reg) (v : Word) :
    ∃ k i d o, s.writeReg r v = { s with key := k, iv := i, din := d, ovf := o } := by
  cases r with
  | keypush => rcases s.pushKey_cases (v.setWidth 8) with ⟨-, h⟩ | ⟨-, h⟩ <;> exact ⟨_, _, _, _, h⟩
  | ivpush => rcases s.pushIv_cases (v.setWidth 8) with ⟨-, h⟩ | ⟨-, h⟩ <;> exact ⟨_, _, _, _, h⟩
  | dinpush => rcases s.pushDin_cases (v.setWidth 8) with ⟨-, h⟩ | ⟨-, h⟩ <;> exact ⟨_, _, _, _, h⟩
  | cmd | status | keylen | ivlen | dinlen | doutlen | doutpop | reserved => exact ⟨_, _, _, _, rfl⟩

section
variable (s : State) (r : Reg) (v : Word) (b : Byte)

@[simp] theorem State.writeReg_phase : (s.writeReg r v).phase = s.phase := by
  obtain ⟨_, _, _, _, h⟩ := s.writeReg_frame r v
  rw [h]

@[simp] theorem State.writeReg_err : (s.writeReg r v).err = s.err := by
  obtain ⟨_, _, _, _, h⟩ := s.writeReg_frame r v
  rw [h]

@[simp] theorem State.writeReg_udf : (s.writeReg r v).udf = s.udf := by
  obtain ⟨_, _, _, _, h⟩ := s.writeReg_frame r v
  rw [h]

theorem State.pushKey_ovf : (s.pushKey b).ovf = (s.ovf || decide (s.cfg.keyMax ≤ s.key.length)) := by
  rcases s.pushKey_cases b with ⟨hroom, h⟩ | ⟨hfull, h⟩ <;> rw [h]
  · simp [Nat.not_le.mpr hroom]
  · simp [hfull]

theorem State.pushIv_ovf : (s.pushIv b).ovf = (s.ovf || decide (s.cfg.ivMax ≤ s.iv.length)) := by
  rcases s.pushIv_cases b with ⟨hroom, h⟩ | ⟨hfull, h⟩ <;> rw [h]
  · simp [Nat.not_le.mpr hroom]
  · simp [hfull]

theorem State.pushDin_ovf : (s.pushDin b).ovf = (s.ovf || decide (s.cfg.inMax ≤ s.din.length)) := by
  rcases s.pushDin_cases b with ⟨hroom, h⟩ | ⟨hfull, h⟩ <;> rw [h]
  · simp [Nat.not_le.mpr hroom]
  · simp [hfull]

end

/-- Rule R27 gives a meaning to writes of three registers; all others but `CMD` ignore them. -/
theorem State.writeReg_ignored (s : State) {r : Reg} (v : Word) (hk : r ≠ .keypush) (hi : r ≠ .ivpush)
    (hd : r ≠ .dinpush) : s.writeReg r v = s := by
  cases r with
  | keypush => exact absurd rfl hk
  | ivpush => exact absurd rfl hi
  | dinpush => exact absurd rfl hd
  | cmd | status | keylen | ivlen | dinlen | doutlen | doutpop | reserved => rfl

theorem regWrite_of_ne (s : State) {r : Reg} (v : Word) (h : r ≠ .cmd) : regWrite r v s = .next (s.writeReg r v) := by
  cases r with
  | cmd => exact absurd rfl h
  | status | keylen | ivlen | dinlen | doutlen | keypush | ivpush | dinpush | doutpop | reserved => rfl

/-! ### One access as a step -/

section
variable (s : State) {off : Nat} (h4 : off % 4 = 0) (h64 : off < 64)

include h4 h64

theorem step_read : step (s.withEvent (.read off 4)) = .next (s.readReg (Reg.atOffset off)) := by
  have hwf : (Event.read off 4).illFormed = none := by simp [Event.illFormed, h4, h64]
  rw [step_withEvent, hwf]
  rfl

theorem step_write (v : Word) : step (s.withEvent (.write off 4 v)) = regWrite (Reg.atOffset off) v s := by
  have hwf : (Event.write off 4 v).illFormed = none := by simp [Event.illFormed, h4, h64]
  rw [step_withEvent, hwf]
  rfl

/-- A read of a register other than `DOUTPOP` only hands its value to the host (20_memory.md rule R55). -/
theorem step_read_of_ne (hr : Reg.atOffset off ≠ .doutpop) :
    step (s.withEvent (.read off 4)) = .next { s with rdata := s.regValue (Reg.atOffset off) } := by
  rw [step_read s h4 h64, s.readReg_of_ne hr]

/-- A write to a register that is neither `CMD` nor a push register is ignored. -/
theorem step_write_ignored (v : Word) (hr : Reg.atOffset off ∉ [Reg.cmd, .keypush, .ivpush, .dinpush]) :
    step (s.withEvent (.write off 4 v)) = .next s := by
  simp only [List.mem_cons, List.not_mem_nil, or_false, not_or] at hr
  obtain ⟨hc, hk, hi, hd⟩ := hr
  rw [step_write s h4 h64, regWrite_of_ne s v hc, s.writeReg_ignored v hk hi hd]

end

/-- An access to `CMD` runs its word. -/
theorem step_write_cmd (s : State) (w : Word) : step (s.withEvent (.write 0x00 4 w)) = commandWrite w s :=
  step_write s rfl (by decide) w

theorem commandWrite_ok (s : State) {w : Word} {i : Instr} (h : decode w = .ok i) : commandWrite w s = exec i s := by
  rw [commandWrite, h]

theorem commandWrite_error (s : State) {w : Word} {x : Illegal} (h : decode w = .error x) :
    commandWrite w s = .next (s.settle .error (some .illegalCommand) []) := by
  rw [commandWrite, h, State.illegalCommand_eq_settle]

/-! ### What a command does with OVF, UDF, STATE and ERR -/

/-- With `OVF` set no function runs, so nothing is drawn. -/
theorem commandDraws_of_ovf (i : Instr) {s : State} (h : s.ovf = true) : commandDraws i s = 0 := by
  cases i with
  | enc mode pad hash ksize text => simp [commandDraws, encDraws, h]
  | clr | b64e | b64d | kdf | dec | pwenc | pwdec => rfl

theorem exec_of_ovf {i : Instr} {s : State} (h : s.ovf = true) (hi : i ≠ .clr) :
    exec i s = .next (s.settle .error (some .bufferOverflow) []) := by
  rw [exec_eq_frame i s hi, commandDraws_of_ovf i h]
  exact congrArg _ (s.frame_ovf _ h)

/-- `STATE` and `ERR` after the frame, as rule R31's table lists them. -/
theorem State.frame_phase_err (s : State) (r : Result Bytes) :
    ((s.frame r).phase, (s.frame r).err) =
      if s.ovf then (.error, some .bufferOverflow)
      else match r with
        | .error k => (.error, some k)
        | .ok v => if v.length ≤ s.cfg.outMax then (.done, none) else (.error, some .bufferOverflow) := by
  rcases s.frame_cases r with ⟨ho, h⟩ | ⟨ho, k, rfl, h⟩ | ⟨ho, v, rfl, hv, h⟩ | ⟨ho, v, rfl, hv, h⟩ <;> rw [h]
  · simp [ho]
  · simp [ho]
  · simp [ho, Nat.not_le.mpr hv]
  · simp [ho, hv]

/-! ### Sticky flags and transitions -/

/-- What moves `OVF`, over the writes: a command word clears it, a push to a full buffer sets it (rule R30). -/
theorem ovf_of_regWrite {s t : State} {off : Nat} {v : Word} (h : regWrite (Reg.atOffset off) v s = .next t) :
    t.ovf =
      if off = 0x00 then false
      else if off = 0x18 then s.ovf || decide (s.cfg.keyMax ≤ s.key.length)
      else if off = 0x1C then s.ovf || decide (s.cfg.ivMax ≤ s.iv.length)
      else if off = 0x20 then s.ovf || decide (s.cfg.inMax ≤ s.din.length)
      else s.ovf := by
  split_ifs with hc hk hi hd
  · subst hc
    obtain ⟨n, p, e, d, hw, -⟩ := commandWrite_settle v s
    cases hw.symm.trans h
    rfl
  · subst hk
    cases h
    exact s.pushKey_ovf _
  · subst hi
    cases h
    exact s.pushIv_ovf _
  · subst hd
    cases h
    exact s.pushDin_ovf _
  · rw [regWrite_of_ne s v (Reg.atOffset_ne (by decide) hc), s.writeReg_ignored v (Reg.atOffset_ne (by decide) hk)
      (Reg.atOffset_ne (by decide) hi) (Reg.atOffset_ne (by decide) hd)] at h
    cases h
    rfl

/-- Of the writes only a command word moves `UDF`, and clears it (rule R30). -/
theorem udf_of_regWrite {s t : State} {off : Nat} {v : Word} (h : regWrite (Reg.atOffset off) v s = .next t) :
    t.udf = if off = 0x00 then false else s.udf := by
  split_ifs with hc
  · subst hc
    obtain ⟨n, p, e, d, hw, -⟩ := commandWrite_settle v s
    cases hw.symm.trans h
    rfl
  · rw [regWrite_of_ne s v (Reg.atOffset_ne (by decide) hc)] at h
    cases h
    exact s.writeReg_udf _ v

/-- Of the reads only a pop moves `UDF`, and sets it when `DOUT` is empty (rules R28, R30). -/
theorem State.readReg_atOffset_udf (s : State) (off : Nat) :
    (s.readReg (Reg.atOffset off)).udf = if off = 0x24 then s.udf || s.dout.isEmpty else s.udf := by
  split_ifs with hp
  · subst hp
    exact s.afterRead_doutpop_udf
  · rw [s.readReg_of_ne (Reg.atOffset_ne (by decide) hp)]

/-- Settles O7: the table by the kind of event, `OVF` by `exec_of_ovf`, and `UDF` is among what an earlier command
leaves, which no command reads. -/
theorem stickyFlagsFollowTheirTable : Obligations.StickyFlagsFollowTheirTable := by
  refine ⟨fun s t e h => ?_, fun s i => exec_of_ovf,
    fun s i u => outcomeIndependentOfEarlierCommands i s s.dout s.phase s.err u, fun c => ⟨rfl, rfl⟩⟩
  obtain ⟨-, hperform⟩ := step_withEvent_next h
  cases e with
  | reset =>
    cases hperform
    exact ⟨rfl, rfl⟩
  | read off size =>
    cases hperform
    exact ⟨s.afterRead_ovf _, s.readReg_atOffset_udf off⟩
  | write off size v => exact ⟨ovf_of_regWrite hperform, udf_of_regWrite hperform⟩

/-- Settles O8: a command word by `State.frame_phase_err`; that neither `STATE`, `ERR` nor `DOUT` has a part by the
independence of earlier commands; any other access by the frame of reads and writes. -/
theorem stateTransitions : Obligations.StateTransitions := by
  refine ⟨fun s w => ?_, fun i s p e d => outcomeIndependentOfEarlierCommands s i d p e i.udf, fun s t h => ?_,
    fun s t off size v hoff h => ?_, fun s t off size h => ?_⟩
  · rw [step_write_cmd]
    cases hd : decode w with
    | error x => exact ⟨_, commandWrite_error s hd, rfl⟩
    | ok i =>
      rw [commandWrite_ok s hd]
      by_cases hi : i = .clr
      · subst hi
        exact ⟨_, exec_clr s, rfl⟩
      · refine ⟨_, exec_eq_frame i s hi, (State.frame_phase_err _ _).trans ?_⟩
        cases i with
        | clr => exact absurd rfl hi
        | b64e | b64d | kdf | enc | dec | pwenc | pwdec => rfl
  · cases (step_withEvent_next h).2
    exact ⟨rfl, rfl⟩
  · have hperform := (step_withEvent_next h).2
    rw [perform, regWrite_of_ne s v (Reg.atOffset_ne (by decide) hoff)] at hperform
    cases hperform
    exact ⟨s.writeReg_phase _ v, s.writeReg_err _ v⟩
  · cases (step_withEvent_next h).2
    exact ⟨s.afterRead_phase _, s.afterRead_err _⟩

/-! ### A command word as a step -/

/-- Settles O1: with a pending access named, the state is `withEvent` of the one without it, so `step_write_cmd`
applies. -/
theorem stepRunsTheDecodedCommand : Obligations.StepRunsTheDecodedCommand := by
  have hpop : ∀ {s : State} {w : Word} {rest : List Event}, s.bus = .write 0x00 4 w :: rest →
      step s = commandWrite w { s with bus := rest } := by
    intro s w rest h
    rw [← step_write_cmd, State.withEvent, ← h]
  refine ⟨fun s w rest i hbus hd => ?_, fun s w rest x hbus hd => ?_, fun s w i h => ?_,
    fun s => step_read_of_ne s rfl (by decide) (by decide)⟩
  · rw [hpop hbus, commandWrite_ok _ hd]
  · rw [hpop hbus, commandWrite_error _ hd]
  · rw [State.withFetchWord, step_write_cmd]
    unfold decodeTableWord at h
    split at h
    · cases h
      exact commandWrite_ok s ‹_›
    · cases h

/-! ### The fields of STATUS -/

section
variable (s : State)

/-- `STATUS` is its fields side by side: each field is reached by leaving the fields below it. -/
theorem State.statusWord_state : s.statusWord.extractLsb' 0 2 = s.phase.code :=
  BitVec.extractLsb'_append_eq_right

theorem State.statusWord_zero_low : s.statusWord.extractLsb' 2 2 = 0#2 :=
  (BitVec.extractLsb'_append_eq_of_le (by decide)).trans BitVec.extractLsb'_append_eq_right

theorem State.statusWord_err : s.statusWord.extractLsb' 4 4 = errCode s.err := by
  unfold State.statusWord
  iterate 2 refine (BitVec.extractLsb'_append_eq_of_le (by decide)).trans ?_
  exact BitVec.extractLsb'_append_eq_right

theorem State.statusWord_ovf : s.statusWord.getLsbD 8 = s.ovf := by
  simp only [State.statusWord, BitVec.getLsbD_append]
  simp

theorem State.statusWord_udf : s.statusWord.getLsbD 9 = s.udf := by
  simp only [State.statusWord, BitVec.getLsbD_append]
  simp

theorem State.statusWord_zero_high : s.statusWord.extractLsb' 10 22 = 0#22 := by
  unfold State.statusWord
  iterate 4 refine (BitVec.extractLsb'_append_eq_of_le (by decide)).trans ?_
  exact BitVec.extractLsb'_append_eq_left

end

/-- In `IDLE` with no error standing and both flags clear every field is 0. -/
theorem State.statusWord_eq_zero {s : State} (hp : s.phase = .idle) (he : s.err = none) (ho : s.ovf = false)
    (hu : s.udf = false) : s.statusWord = 0#32 := by
  rw [State.statusWord, hp, he, ho, hu]
  decide

theorem Phase.code_eq_two_iff (p : Phase) : p.code = 2#2 ↔ p = .error := by cases p <;> decide

theorem Phase.code_eq_one_iff (p : Phase) : p.code = 1#2 ↔ p = .done := by cases p <;> decide

/-- Every kind has a code other than 0 (60_exceptions.md rule R300). -/
theorem errCode_eq_zero_iff (e : Option ErrKind) : errCode e = 0#4 ↔ e = none := by
  cases e with
  | none => decide
  | some k => cases k <;> decide

/-- Settles O2, field by field. -/
theorem statusWordLayout : Obligations.StatusWordLayout := by
  intro s
  refine ⟨?_, s.statusWord_zero_low, ?_, s.statusWord_ovf, s.statusWord_udf, s.statusWord_zero_high, fun hs => ?_,
    fun hs hdone => ?_, fun c => State.statusWord_eq_zero rfl rfl rfl rfl,
    step_read_of_ne s rfl (by decide) (by decide),
    fun v => step_write_ignored s rfl (by decide) v (by decide)⟩
  · rw [s.statusWord_state]
    cases s.phase <;> rfl
  · rw [s.statusWord_err]
    cases s.err with
    | none => rfl
    | some k => cases k <;> rfl
  · obtain ⟨-, -, herr, -⟩ := hs
    rw [s.statusWord_err, s.statusWord_state, Ne, errCode_eq_zero_iff, Phase.code_eq_two_iff]
    exact herr
  · obtain ⟨-, -, -, hempty⟩ := hs
    rw [s.statusWord_state, Ne, Phase.code_eq_one_iff] at hdone
    exact hempty hdone

/-! ### Buffers through their registers -/

/-- A length below the word size is read whole (rule R26). -/
theorem lenWord_toNat {b : Bytes} (h : b.length < 2 ^ 32) : (lenWord b).toNat = b.length := by
  rw [lenWord, BitVec.toNat_ofNat, Nat.mod_eq_of_lt h]

/-- Rule R6 keeps every capacity, and rule R20 every length, below the word size. -/
theorem State.Inv.length_lt {s : State} (h : s.Inv) :
    s.key.length < 2 ^ 32 ∧ s.iv.length < 2 ^ 32 ∧ s.din.length < 2 ^ 32 ∧ s.dout.length < 2 ^ 32 := by
  obtain ⟨hc, ⟨hkey, hiv, hdin, hdout⟩, -, -⟩ := h
  simp only [Config.wellFormed, Bool.and_eq_true, decide_eq_true_eq] at hc
  omega

theorem step_pop_cons {s : State} {b : Byte} {rest : Bytes} (h : s.dout = b :: rest) :
    step (s.withEvent (.read 0x24 4)) = .next { s with dout := rest, rdata := b.setWidth 32 } := by
  rw [step_read s rfl (by decide)]
  simp [Reg.atOffset, State.readReg, s.afterRead_doutpop_cons h, State.regValue, h]

theorem step_pop_nil {s : State} (h : s.dout = []) :
    step (s.withEvent (.read 0x24 4)) = .next { s with udf := true, rdata := 0#32 } := by
  rw [step_read s rfl (by decide)]
  simp [Reg.atOffset, State.readReg, s.afterRead_doutpop_nil h, State.regValue, h]

/-- Settles O3: under the invariant `lenWord` loses nothing, for `DOUT` after a pop too. -/
theorem lengthRegistersReportBuffers : Obligations.LengthRegistersReportBuffers := by
  intro s hs
  obtain ⟨hkey, hiv, hdin, hdout⟩ := hs.length_lt
  refine ⟨⟨_, step_read_of_ne s rfl (by decide) (by decide), lenWord_toNat hkey⟩,
    ⟨_, step_read_of_ne s rfl (by decide) (by decide), lenWord_toNat hiv⟩,
    ⟨_, step_read_of_ne s rfl (by decide) (by decide), lenWord_toNat hdin⟩,
    ⟨_, step_read_of_ne s rfl (by decide) (by decide), lenWord_toNat hdout⟩, fun v => ?_, fun hne => ?_⟩
  · refine ⟨?_, ?_, ?_, ?_⟩ <;> exact step_write_ignored s rfl (by decide) v (by decide)
  · obtain ⟨b, rest, hd⟩ := List.exists_cons_of_ne_nil hne
    have hrest : rest.length < 2 ^ 32 := by
      rw [hd, List.length_cons] at hdout
      omega
    refine ⟨_, _, step_pop_cons hd, step_read_of_ne _ rfl (by decide) (by decide), ?_⟩
    rw [hd, List.length_cons]
    exact congrArg (· + 1) (lenWord_toNat hrest)

/-- Settles O4: the low eight bits are what `setWidth` keeps; a dropped byte leaves `OVF` set. -/
theorem pushAppendsOrSetsOverflow : Obligations.PushAppendsOrSetsOverflow := by
  intro s v
  rw [← BitVec.setWidth_eq_extractLsb' (by decide)]
  exact ⟨step_write s rfl (by decide) v, step_write s rfl (by decide) v, step_write s rfl (by decide) v,
    step_read_of_ne s rfl (by decide) (by decide), step_read_of_ne s rfl (by decide) (by decide),
    step_read_of_ne s rfl (by decide) (by decide), fun i hi => exec_of_ovf (s := { s with ovf := true }) rfl hi⟩

/-- Settles O5: outside `DONE` the invariant says that `DOUT` is empty. -/
theorem popReturnsFirstByteOrSetsUnderflow : Obligations.PopReturnsFirstByteOrSetsUnderflow := by
  refine fun s => ⟨fun b rest => step_pop_cons, step_pop_nil, fun hs hp => ?_,
    fun v => step_write_ignored s rfl (by decide) v (by decide)⟩
  obtain ⟨-, -, -, hempty⟩ := hs
  exact step_pop_nil (hempty hp)

/-- A write-only register and a reserved slot hold nothing to read (rules R24, R27, R29). -/
theorem State.regValue_of_writeOnly (s : State) {r : Reg}
    (h : r ∈ [Reg.cmd, .keypush, .ivpush, .dinpush, .reserved]) : s.regValue r = 0#32 := by
  cases r with
  | cmd | keypush | ivpush | dinpush | reserved => rfl
  | status | keylen | ivlen | dinlen | doutlen | doutpop => exact absurd h (by decide)

/-- A read of a write-only register or a reserved slot hands over 0 and does nothing else. -/
theorem step_read_of_writeOnly (s : State) {off : Nat} (h4 : off % 4 = 0) (h64 : off < 64)
    (h : Reg.atOffset off ∈ [Reg.cmd, .keypush, .ivpush, .dinpush, .reserved]) :
    step (s.withEvent (.read off 4)) = .next { s with rdata := 0#32 } := by
  have hpop : Reg.atOffset off ≠ .doutpop := fun hp => absurd (hp ▸ h) (by decide)
  rw [step_read_of_ne s h4 h64 hpop, s.regValue_of_writeOnly h]

/-- Settles O6: each list of offsets names registers of one kind, and every aligned offset of the block is a
register or a reserved slot. -/
theorem reservedOffsetsHaveNoEffect : Obligations.ReservedOffsetsHaveNoEffect := by
  have hres : ∀ off ∈ [0x28, 0x2C, 0x30, 0x34, 0x38, 0x3C],
      off % 4 = 0 ∧ off < 64 ∧ Reg.atOffset off = .reserved := by decide
  have hro : ∀ off ∈ [0x04, 0x08, 0x0C, 0x10, 0x14, 0x24],
      off % 4 = 0 ∧ off < 64 ∧ Reg.atOffset off ∉ [Reg.cmd, .keypush, .ivpush, .dinpush] := by decide
  have hwo : ∀ off ∈ [0x00, 0x18, 0x1C, 0x20],
      off % 4 = 0 ∧ off < 64 ∧ Reg.atOffset off ∈ [Reg.cmd, .keypush, .ivpush, .dinpush, .reserved] := by decide
  refine fun s => ⟨fun off hoff => ?_, fun off hoff v => ?_, fun off hoff => ?_, fun off v h4 h64 => ?_⟩
  · obtain ⟨h4, h64, hr⟩ := hres off hoff
    exact ⟨step_read_of_writeOnly s h4 h64 (by rw [hr]; decide),
      fun v => step_write_ignored s h4 h64 v (by rw [hr]; decide)⟩
  · obtain ⟨h4, h64, hr⟩ := hro off hoff
    exact step_write_ignored s h4 h64 v hr
  · obtain ⟨h4, h64, hr⟩ := hwo off hoff
    exact step_read_of_writeOnly s h4 h64 hr
  · refine ⟨⟨_, step_read s h4 h64⟩, ?_⟩
    rw [step_write s h4 h64 v]
    exact perform_next (.write off 4 v) s

/-! ### Reset -/

/-- Every register of a reset state reads as 0 (rule R40). -/
theorem State.regValue_resetWith (c : Config) (r : Reg) : (State.resetWith c).regValue r = 0#32 := by
  cases r with
  | status => exact State.statusWord_eq_zero rfl rfl rfl rfl
  | cmd | keylen | ivlen | dinlen | doutlen | keypush | ivpush | dinpush | doutpop | reserved => rfl

/-- Settles O9: the reset event keeps the capacities and what is the host's, none of which R40 speaks of. -/
theorem resetValues : Obligations.ResetValues := by
  have hoffsets : ∀ off ∈ [0x04, 0x08, 0x0C, 0x10, 0x14], off % 4 = 0 ∧ off < 64 := by decide
  refine ⟨fun c s hs => ?_, ⟨Config.reference, rfl⟩, fun s => ?_⟩
  · rw [List.mem_singleton.mp hs]
    refine ⟨rfl, rfl, rfl, rfl, rfl, rfl, rfl, rfl, State.statusWord_eq_zero rfl rfl rfl rfl, fun off hoff => ?_⟩
    obtain ⟨h4, h64⟩ := hoffsets off hoff
    exact ⟨_, step_read _ h4 h64, State.regValue_resetWith c _⟩
  · exact ⟨s.hardReset, step_withEvent s .reset, rfl, rfl, rfl, rfl, rfl, rfl, rfl, rfl,
      State.statusWord_eq_zero rfl rfl rfl rfl⟩

end Sys2Proof.Machine
end

-- The proofs of the family 20_memory.md.
section
/-! PROOFS. Which accesses are performed (20_memory.md rule R51), the frame of each access (rule R55), and the order
and independence of the buffers' bytes (rules R60, R62; 70_reset_and_hazards.md rule R351). -/

namespace Sys2Proof.Machine

/-! ### Accesses performed and refused -/

/-- A read and a write at the same place are refused or performed alike. -/
theorem Event.illFormed_access {e : Event} {off size : Nat} {v : Word}
    (he : e ∈ [Event.read off size, Event.write off size v]) :
    e.illFormed = (Event.read off size).illFormed := by
  simp only [List.mem_cons, List.not_mem_nil, or_false] at he
  rcases he with rfl | rfl <;> rfl

theorem step_refused (s : State) {e : Event} {r : Refusal} (h : e.illFormed = some r) :
    step (s.withEvent e) = .refused r := by
  rw [step_withEvent, h]

theorem step_performed (s : State) {e : Event} (h : e.illFormed = none) : step (s.withEvent e) = perform e s := by
  rw [step_withEvent, h]

/-- Settles O10: the three tests of `Event.illFormed` in their order, and a well-formed event is performed. -/
theorem onlyAlignedWordAccessesArePerformed : Obligations.OnlyAlignedWordAccessesArePerformed := by
  intro s off size v e he
  have hill := Event.illFormed_access he
  refine ⟨fun hsize => ?_, fun hsize hoff => ?_, fun hsize h4 h64 => ?_, fun hsize h4 h64 => ?_⟩
  · exact step_refused s (hill.trans (by simp [Event.illFormed, hsize]))
  · exact step_refused s (hill.trans (by simp [Event.illFormed, hsize, hoff]))
  · exact step_refused s (hill.trans (by simp [Event.illFormed, hsize, h4, h64]))
  · rw [step_performed s (hill.trans (by simp [Event.illFormed, hsize, h4, h64]))]
    exact perform_next e s

/-! ### A pop and a push, field by field -/

/-- A pop in one equation: on an empty `DOUT` the tail is empty too, and only `UDF` is set (rule R28). -/
theorem State.readReg_doutpop (s : State) : s.readReg .doutpop =
    { s with dout := s.dout.tail, udf := s.udf || s.dout.isEmpty, rdata := s.regValue .doutpop } := by
  cases hd : s.dout with
  | nil => simp [State.readReg, s.afterRead_doutpop_nil hd, hd]
  | cons b rest => simp [State.readReg, s.afterRead_doutpop_cons hd]

/-- What a buffer of capacity `cap` holds after a push of `b` (rule R27). -/
def pushed (cap : Nat) (buf : Bytes) (b : Byte) : Bytes := if buf.length < cap then buf ++ [b] else buf

theorem pushed_of_room {cap : Nat} {buf : Bytes} (b : Byte) (h : buf.length < cap) :
    pushed cap buf b = buf ++ [b] := if_pos h

theorem pushed_of_full {cap : Nat} {buf : Bytes} (b : Byte) (h : cap ≤ buf.length) : pushed cap buf b = buf :=
  if_neg (Nat.not_lt.mpr h)

theorem pushed_cases (cap : Nat) (buf : Bytes) (b : Byte) :
    pushed cap buf b = buf ∨ ∃ c, pushed cap buf b = buf ++ [c] := by
  rcases Nat.lt_or_ge buf.length cap with h | h
  · exact .inr ⟨b, pushed_of_room b h⟩
  · exact .inl (pushed_of_full b h)

section
variable (s : State) (b c : Byte)

theorem State.pushKey_eq : s.pushKey b =
    { s with key := pushed s.cfg.keyMax s.key b, ovf := s.ovf || decide (s.cfg.keyMax ≤ s.key.length) } := by
  rcases s.pushKey_cases b with ⟨h, heq⟩ | ⟨h, heq⟩
  · simp [heq, pushed_of_room b h, Nat.not_le.mpr h]
  · simp [heq, pushed_of_full b h, h]

theorem State.pushIv_eq : s.pushIv b =
    { s with iv := pushed s.cfg.ivMax s.iv b, ovf := s.ovf || decide (s.cfg.ivMax ≤ s.iv.length) } := by
  rcases s.pushIv_cases b with ⟨h, heq⟩ | ⟨h, heq⟩
  · simp [heq, pushed_of_room b h, Nat.not_le.mpr h]
  · simp [heq, pushed_of_full b h, h]

theorem State.pushDin_eq : s.pushDin b =
    { s with din := pushed s.cfg.inMax s.din b, ovf := s.ovf || decide (s.cfg.inMax ≤ s.din.length) } := by
  rcases s.pushDin_cases b with ⟨h, heq⟩ | ⟨h, heq⟩
  · simp [heq, pushed_of_room b h, Nat.not_le.mpr h]
  · simp [heq, pushed_of_full b h, h]

/-! ### Independent buffers -/

/-- Pushes to two buffers share only `OVF`, which each can only set. -/
theorem State.pushKey_pushIv_comm : (s.pushKey b).pushIv c = (s.pushIv c).pushKey b := by
  simp only [State.pushKey_eq, State.pushIv_eq, Bool.or_right_comm]

theorem State.pushKey_pushDin_comm : (s.pushKey b).pushDin c = (s.pushDin c).pushKey b := by
  simp only [State.pushKey_eq, State.pushDin_eq, Bool.or_right_comm]

theorem State.pushIv_pushDin_comm : (s.pushIv b).pushDin c = (s.pushDin c).pushIv b := by
  simp only [State.pushIv_eq, State.pushDin_eq, Bool.or_right_comm]

end

/-- Writes to two different registers commute, `CMD` set apart: at most two of them are pushes. -/
theorem State.writeReg_comm (s : State) {r q : Reg} (v w : Word) (h : r ≠ q) :
    (s.writeReg r v).writeReg q w = (s.writeReg q w).writeReg r v := by
  cases r with
  | keypush =>
    cases q with
    | keypush => exact absurd rfl h
    | ivpush => exact s.pushKey_pushIv_comm _ _
    | dinpush => exact s.pushKey_pushDin_comm _ _
    | cmd | status | keylen | ivlen | dinlen | doutlen | doutpop | reserved => rfl
  | ivpush =>
    cases q with
    | keypush => exact (s.pushKey_pushIv_comm _ _).symm
    | ivpush => exact absurd rfl h
    | dinpush => exact s.pushIv_pushDin_comm _ _
    | cmd | status | keylen | ivlen | dinlen | doutlen | doutpop | reserved => rfl
  | dinpush =>
    cases q with
    | keypush => exact (s.pushKey_pushDin_comm _ _).symm
    | ivpush => exact (s.pushIv_pushDin_comm _ _).symm
    | dinpush => exact absurd rfl h
    | cmd | status | keylen | ivlen | dinlen | doutlen | doutpop | reserved => rfl
  | cmd | status | keylen | ivlen | dinlen | doutlen | doutpop | reserved => rfl

/-- A push reads and moves nothing of `DOUT`, `UDF` and the value handed to the host, and a pop nothing else. -/
theorem State.writeReg_readReg_doutpop (s : State) (r : Reg) (v : Word) :
    (s.writeReg r v).readReg .doutpop = (s.readReg .doutpop).writeReg r v := by
  rw [State.readReg_doutpop, State.readReg_doutpop]
  cases r with
  | keypush => simp only [State.writeReg, State.pushKey_eq, State.regValue]
  | ivpush => simp only [State.writeReg, State.pushIv_eq, State.regValue]
  | dinpush => simp only [State.writeReg, State.pushDin_eq, State.regValue]
  | cmd | status | keylen | ivlen | dinlen | doutlen | doutpop | reserved => rfl

/-! ### The host fields under a command -/

/-- Only the code of ISO10126 stands for the scheme that draws (30_encoding.md rule R82). -/
theorem eq_four_of_padDraws_ne_zero {pc : BitVec 3} {p : Padding} {n : Nat} (h : paddingOf pc = some p)
    (hn : padDraws p n ≠ 0) : pc = 4#3 := by
  cases p with
  | iso10126 => revert pc; decide
  | none | zeros | pkcs7 | ansix923 => exact absurd rfl hn

/-- A command that is no `ENC` with ISO10126 draws nothing (43_padding.md rule R196). -/
theorem commandDraws_eq_zero {i : Instr} (s : State)
    (h : ∀ mc hash ksize text, i ≠ .enc mc 4#3 hash ksize text) : commandDraws i s = 0 := by
  cases i with
  | enc mc pc hash ksize text =>
    by_contra hn
    simp only [commandDraws, encDraws] at hn
    split at hn
    · exact hn rfl
    · split at hn
      · rename_i c p hc
        obtain ⟨-, hp, -⟩ := encCheck_eq_ok.1 hc
        exact h mc hash ksize text (eq_four_of_padDraws_ne_zero hp hn ▸ rfl)
      · exact hn rfl
  | clr | b64e | b64d | kdf | dec | pwenc | pwdec => rfl

/-- Every command takes its draws and settles. -/
theorem exec_settle (i : Instr) (s : State) :
    ∃ p e v, exec i s = .next ((s.advanceDraws (commandDraws i s)).settle p e v) := by
  by_cases hi : i = .clr
  · subst hi
    exact ⟨_, _, _, exec_clr s⟩
  · rw [exec_eq_frame i s hi]
    rcases State.frame_eq_settle (s.advanceDraws (commandDraws i s))
      (commandFunction i s.nextDraw s.key s.iv s.din) with ⟨k, h⟩ | ⟨v, -, h⟩
    · exact ⟨_, _, _, congrArg _ h⟩
    · exact ⟨_, _, _, congrArg _ h⟩

/-- Of the model's own fields a command word moves only the count of draws, by at most 7 and only as an `ENC` with
ISO10126 (logs 1, 2, 3). -/
theorem commandWrite_hostFields {w : Word} {s t : State} (h : commandWrite w s = .next t) :
    t.cfg = s.cfg ∧ t.bus = s.bus ∧ t.rdata = s.rdata ∧ s.draws ≤ t.draws ∧ t.draws ≤ s.draws + 7 ∧
      ((∀ mc hash ksize text, decode w ≠ .ok (.enc mc 4#3 hash ksize text)) → t.draws = s.draws) := by
  cases hd : decode w with
  | error x =>
    cases (commandWrite_error s hd).symm.trans h
    exact ⟨rfl, rfl, rfl, Nat.le_refl _, Nat.le_add_right _ _, fun _ => rfl⟩
  | ok i =>
    obtain ⟨p, e, v, hexec⟩ := exec_settle i s
    cases (((commandWrite_ok s hd).trans hexec).symm.trans h)
    refine ⟨rfl, rfl, rfl, Nat.le_add_right _ _, Nat.add_le_add_left (commandDraws_le i s) _, fun hiso => ?_⟩
    have hzero : commandDraws i s = 0 :=
      commandDraws_eq_zero s fun mc hash ksize text hi => hiso mc hash ksize text (congrArg _ hi)
    simp [hzero]

/-! ### The frame of every access -/

/-- Settles O11: a step that answered performed its access, so each clause is the frame of one register's access. -/
theorem accessFrame : Obligations.AccessFrame := by
  refine fun s t off size v => ⟨fun h hoff => ?_, fun h hoff => ?_, fun h hoff => ?_, fun h hoff => ?_,
    fun h hoff => ?_, fun h hoff => ?_, fun h hoff => ?_⟩ <;> obtain ⟨-, hperform⟩ := step_withEvent_next h
  · cases hperform
    rw [s.readReg_of_ne (Reg.atOffset_ne (by decide) hoff)]
  · subst hoff
    cases hperform
    exact s.readReg_doutpop
  · subst hoff
    obtain rfl : s.pushKey (v.setWidth 8) = t := by injection hperform
    rw [s.pushKey_eq]
    exact ⟨rfl, pushed_cases _ _ _⟩
  · subst hoff
    obtain rfl : s.pushIv (v.setWidth 8) = t := by injection hperform
    rw [s.pushIv_eq]
    exact ⟨rfl, pushed_cases _ _ _⟩
  · subst hoff
    obtain rfl : s.pushDin (v.setWidth 8) = t := by injection hperform
    rw [s.pushDin_eq]
    exact ⟨rfl, pushed_cases _ _ _⟩
  · simp only [List.mem_cons, List.not_mem_nil, or_false, not_or] at hoff
    obtain ⟨hc, hk, hi, hd⟩ := hoff
    rw [perform, regWrite_of_ne s v (Reg.atOffset_ne (by decide) hc), s.writeReg_ignored v
      (Reg.atOffset_ne (by decide) hk) (Reg.atOffset_ne (by decide) hi) (Reg.atOffset_ne (by decide) hd)] at hperform
    cases hperform
    rfl
  · subst hoff
    exact commandWrite_hostFields hperform

/-! ### Sequences of accesses -/

theorem afterEvents_cons {s t : State} {e : Event} (es : List Event) (h : step (s.withEvent e) = .next t) :
    afterEvents s (e :: es) = afterEvents t es := by
  rw [afterEvents, h]

theorem afterEvents_pair {s t u : State} {e f : Event} (h : step (s.withEvent e) = .next t)
    (h' : step (t.withEvent f) = .next u) : afterEvents s [e, f] = some u := by
  rw [afterEvents_cons _ h, afterEvents_cons _ h', afterEvents]

/-- A write to a register other than `CMD` as a step. -/
theorem step_write_of_ne (s : State) {off : Nat} (h4 : off % 4 = 0) (h64 : off < 64) (hc : Reg.atOffset off ≠ .cmd)
    (v : Word) : step (s.withEvent (.write off 4 v)) = .next (s.writeReg (Reg.atOffset off) v) := by
  rw [step_write s h4 h64, regWrite_of_ne s v hc]

theorem step_pushDin_room {s : State} (b : Byte) (h : s.din.length < s.cfg.inMax) :
    step (s.withEvent (.write 0x20 4 (b.setWidth 32))) = .next { s with din := s.din ++ [b] } := by
  have hpush : s.writeReg .dinpush (b.setWidth 32) = { s with din := s.din ++ [b] } := by
    rw [State.writeReg, BitVec.setWidth_setWidth_of_le b (by decide)]
    exact if_pos h
  rw [← hpush]
  exact step_write_of_ne s rfl (by decide) (by decide) _

/-- Bytes pushed to `DIN` with room lie there in the order of the writes (rule R62). -/
theorem afterEvents_push_din (bs : Bytes) : ∀ s : State, s.din.length + bs.length ≤ s.cfg.inMax →
    afterEvents s (bs.map fun b => .write 0x20 4 (b.setWidth 32)) = some { s with din := s.din ++ bs } := by
  induction bs with
  | nil =>
    intro s _
    simp [afterEvents]
  | cons b bs ih =>
    intro s h
    rw [List.length_cons] at h
    rw [List.map_cons, afterEvents_cons _ (step_pushDin_room b (by omega)), ih _ (by simp; omega)]
    simp

/-- Pops return the bytes of `DOUT` in index order; the last one popped is the one still handed to the host. -/
theorem afterEvents_pop (n : Nat) : ∀ (s : State) (h : n < s.dout.length),
    afterEvents s (List.replicate (n + 1) (.read 0x24 4)) =
      some { s with dout := s.dout.drop (n + 1), rdata := (s.dout[n]).setWidth 32 } := by
  induction n with
  | zero =>
    intro s h
    obtain ⟨b, rest, hd⟩ := List.exists_cons_of_length_pos h
    simp [afterEvents_cons _ (step_pop_cons hd), afterEvents, hd]
  | succ n ih =>
    intro s h
    obtain ⟨b, rest, hd⟩ := List.exists_cons_of_length_pos (Nat.zero_lt_of_lt h)
    have hrest : n < rest.length := by simpa [hd] using h
    rw [List.replicate_succ, afterEvents_cons _ (step_pop_cons hd), ih _ hrest]
    simp [hd]

/-- Settles O12: order by induction on the accesses; independence because the registers' operations commute. -/
theorem buffersKeepByteOrder : Obligations.BuffersKeepByteOrder := by
  have hpush : ∀ a ∈ [0x18, 0x1C, 0x20],
      a % 4 = 0 ∧ a < 64 ∧ Reg.atOffset a ≠ .cmd ∧ (Reg.atOffset a).offset = a := by decide
  refine ⟨fun s bs => afterEvents_push_din bs s, fun s n => afterEvents_pop n s,
    fun s v w => ⟨fun a ha b hb hab => ?_, fun a ha => ?_⟩⟩
  · obtain ⟨ha4, ha64, hac, haoff⟩ := hpush a ha
    obtain ⟨hb4, hb64, hbc, hboff⟩ := hpush b hb
    have hne : Reg.atOffset a ≠ Reg.atOffset b := fun h => hab (by rw [← haoff, h, hboff])
    rw [afterEvents_pair (step_write_of_ne s ha4 ha64 hac v) (step_write_of_ne _ hb4 hb64 hbc w),
      afterEvents_pair (step_write_of_ne s hb4 hb64 hbc w) (step_write_of_ne _ ha4 ha64 hac v),
      s.writeReg_comm v w hne]
  · obtain ⟨ha4, ha64, hac, -⟩ := hpush a ha
    rw [afterEvents_pair (step_write_of_ne s ha4 ha64 hac v) (step_read _ rfl (by decide)),
      afterEvents_pair (step_read s rfl (by decide)) (step_write_of_ne _ ha4 ha64 hac v)]
    exact congrArg some (s.writeReg_readReg_doutpop _ v)

end Sys2Proof.Machine
end

-- The proofs of the family 30_encoding.md.
section
/-! PROOFS. The fields of the command word, decoder and encoder as inverses, the opcode table and the illegal words
(30_encoding.md rules R81 to R89, R95), and the command frame with what each command reads (rules R87, R90, R91). -/

namespace Sys2Proof

/-! ### The fields of a command word (rule R81) -/

section
variable (op : BitVec 4) (mode pad : BitVec 3) (hash ksize text : Bool)

/-- The shifts and ors of rule R95 place the fields side by side, under a zero `RSV`. -/
theorem encodeFields_eq_append : encodeFields op mode pad hash ksize text =
    0#19 ++ BitVec.ofBool text ++ BitVec.ofBool ksize ++ BitVec.ofBool hash ++ pad ++ mode ++ op := by
  ext i hi
  simp only [encodeFields, bitAt]
  grind

@[simp] theorem rsvField_encodeFields : rsvField (encodeFields op mode pad hash ksize text) = 0#19 := by
  ext i hi
  simp only [rsvField, encodeFields_eq_append]
  grind

@[simp] theorem opField_encodeFields : opField (encodeFields op mode pad hash ksize text) = op := by
  ext i hi
  simp only [opField, encodeFields_eq_append]
  grind

@[simp] theorem modeField_encodeFields : modeField (encodeFields op mode pad hash ksize text) = mode := by
  ext i hi
  simp only [modeField, encodeFields_eq_append]
  grind

@[simp] theorem padField_encodeFields : padField (encodeFields op mode pad hash ksize text) = pad := by
  ext i hi
  simp only [padField, encodeFields_eq_append]
  grind

@[simp] theorem hashField_encodeFields : hashField (encodeFields op mode pad hash ksize text) = hash := by
  simp only [hashField, encodeFields_eq_append]
  grind

@[simp] theorem ksizeField_encodeFields : ksizeField (encodeFields op mode pad hash ksize text) = ksize := by
  simp only [ksizeField, encodeFields_eq_append]
  grind

@[simp] theorem textField_encodeFields : textField (encodeFields op mode pad hash ksize text) = text := by
  simp only [textField, encodeFields_eq_append]
  grind

end

section
variable {w : Word}

/-- A word without reserved bits is the encoding of its fields. -/
theorem encodeFields_fields (hr : rsvField w = 0#19) :
    encodeFields (opField w) (modeField w) (padField w) (hashField w) (ksizeField w) (textField w) = w := by
  rw [encodeFields_eq_append, ← hr]
  ext i hi
  simp only [rsvField, opField, modeField, padField, hashField, ksizeField, textField]
  grind

/-- Bits [12:4] are all the fields above `OP`. -/
theorem fieldBits_eq_zero_iff : w.extractLsb' 4 9 = 0#9 ↔
    modeField w = 0#3 ∧ padField w = 0#3 ∧ hashField w = false ∧ ksizeField w = false ∧ textField w = false := by
  simp only [modeField, padField, hashField, ksizeField, textField, ← BitVec.toNat_inj, BitVec.extractLsb'_toNat,
    Nat.shiftRight_eq_div_pow, BitVec.getLsbD, Nat.testBit_eq_decide_div_mod_eq, BitVec.toNat_ofNat,
    decide_eq_false_iff_not]
  omega

/-- Bits [9:4] are `MODE` and `PAD`. -/
theorem configBits_eq_zero_iff : w.extractLsb' 4 6 = 0#6 ↔ modeField w = 0#3 ∧ padField w = 0#3 := by
  simp only [modeField, padField, ← BitVec.toNat_inj, BitVec.extractLsb'_toNat, Nat.shiftRight_eq_div_pow,
    BitVec.toNat_ofNat]
  omega

theorem opField_eq_ofNat {n : Nat} (ho : (opField w).toNat = n) : opField w = BitVec.ofNat 4 n := by
  rw [← ho, BitVec.ofNat_toNat, BitVec.setWidth_eq]

/-! ### Decode and encode (rules R89, R95) -/

theorem decode_encode (i : Instr) : decode (encode i) = .ok i := by
  cases i with
  | clr | b64e | b64d | pwenc | pwdec => rfl
  | kdf hash ksize => simp [decode, encode, configBits_eq_zero_iff]
  | enc mode pad hash ksize text => simp [decode, encode]
  | dec mode pad hash ksize text => simp [decode, encode]

/-- A word that decodes to a command without fields is its `OP` and nothing else. -/
theorem encode_of_decodeBare {i j : Instr} (hr : rsvField w = 0#19) (ho : (opField w).toNat = j.opcode)
    (hj : encode j = encodeFields (BitVec.ofNat 4 j.opcode) 0#3 0#3 false false false)
    (h : decodeBare j w = .ok i) : encode i = w := by
  unfold decodeBare at h
  split at h
  · rename_i hbits
    obtain ⟨hmode, hpad, hhash, hksize, htext⟩ := fieldBits_eq_zero_iff.1 hbits
    have hw := encodeFields_fields hr
    rw [hmode, hpad, hhash, hksize, htext, opField_eq_ofNat ho, ← hj] at hw
    cases h
    exact hw
  · cases h

/-- Decoding drops no bit: each branch of rule R89 tests that the bits it does not hand on are those of `encode`. -/
theorem encode_of_decode {i : Instr} (h : decode w = .ok i) : encode i = w := by
  unfold decode at h
  split at h
  · cases h
  rename_i hrsv
  have hr : rsvField w = 0#19 := not_not.1 hrsv
  have hw := encodeFields_fields hr
  split at h <;> rename_i ho
  · exact encode_of_decodeBare (j := .clr) hr ho rfl h
  · exact encode_of_decodeBare (j := .b64e) hr ho rfl h
  · exact encode_of_decodeBare (j := .b64d) hr ho rfl h
  · split at h
    · rename_i hbits
      obtain ⟨hmode, hpad⟩ := configBits_eq_zero_iff.1 hbits.1
      cases h
      rwa [hmode, hpad, hbits.2, opField_eq_ofNat ho] at hw
    · cases h
  · cases h
    rwa [opField_eq_ofNat ho] at hw
  · cases h
    rwa [opField_eq_ofNat ho] at hw
  · exact encode_of_decodeBare (j := .pwenc) hr ho rfl h
  · exact encode_of_decodeBare (j := .pwdec) hr ho rfl h
  · cases h

theorem decodeBare_eq_error {i : Instr} : (∃ x, decodeBare i w = .error x) ↔ w.extractLsb' 4 9 ≠ 0#9 := by
  unfold decodeBare
  split <;> simp [*]

/-- The illegal words of rule R86, by the tests of rule R89. -/
theorem decode_eq_error_iff : (∃ x, decode w = .error x) ↔
    rsvField w ≠ 0#19 ∨ 8 ≤ (opField w).toNat ∨
    ((opField w).toNat ∈ [0, 1, 2, 6, 7] ∧ w.extractLsb' 4 9 ≠ 0#9) ∨
    ((opField w).toNat = 3 ∧ (w.extractLsb' 4 6 ≠ 0#6 ∨ textField w = true)) := by
  unfold decode
  split
  · simp [*]
  rename_i hr
  split <;> rename_i ho
  case h_1 | h_2 | h_3 | h_7 | h_8 => simp [decodeBare_eq_error, hr, ho]
  case h_4 =>
    split <;> rename_i hbits
    · simp [hr, ho, hbits]
    · simpa [hr, ho, ← imp_iff_not_or] using hbits
  case h_5 | h_6 => simp [hr, ho]
  case h_9 =>
    have hop : 8 ≤ (opField w).toNat := by
      simp only [imp_false] at *
      omega
    simp [hop]

end

theorem Instr.wellFormed_eq_true (i : Instr) : i.wellFormed = true := by
  cases i with
  | enc mode pad hash ksize text => simp [Instr.wellFormed, mode.isLt, pad.isLt]
  | dec mode pad hash ksize text => simp [Instr.wellFormed, mode.isLt, pad.isLt]
  | clr | b64e | b64d | kdf | pwenc | pwdec => rfl

/-- Settles O13, by the command: the fields of an encoding are those it was made of. -/
theorem decodeOfEncodeIsTheCommand : Obligations.DecodeOfEncodeIsTheCommand :=
  fun i _ => decode_encode i

/-- Settles O14; no term of `Instr` is ill formed. -/
theorem decodedWordIsTheEncoding : Obligations.DecodedWordIsTheEncoding :=
  fun _ i h => ⟨encode_of_decode h, i.wellFormed_eq_true⟩

/-! ### The opcode table (rule R84) -/

/-- A field that a row's mask covers is that of the row's match. -/
theorem extractLsb'_of_masked {w mask value : Word} (h : w &&& mask = value) {start len : Nat}
    (hmask : mask.extractLsb' start len = BitVec.allOnes len) :
    w.extractLsb' start len = value.extractLsb' start len := by
  rw [← h, BitVec.extractLsb'_and, hmask, BitVec.and_allOnes]

/-- A row whose mask covers the whole word selects one word. -/
theorem exists_encode_of_masked {w : Word} {i : Instr}
    (h : decide (w &&& BitVec.allOnes 32 = encode i) = true) : ∃ j, encode j = w :=
  ⟨i, by rw [← of_decide_eq_true h, BitVec.and_allOnes]⟩

/-- A row whose mask covers `RSV` and `OP` alone, as of `ENC` and `DEC`, leaves every other field open. -/
theorem encodeFields_of_masked {w value : Word} (h : w &&& 0xFFFFE00F#32 = value) (hr : rsvField value = 0#19) :
    encodeFields (opField value) (modeField w) (padField w) (hashField w) (ksizeField w) (textField w) = w := by
  have hop : opField w = opField value := extractLsb'_of_masked h (by decide)
  have hrsv : rsvField w = rsvField value := extractLsb'_of_masked h (by decide)
  rw [← hop]
  exact encodeFields_fields (hrsv.trans hr)

/-- A word that a row selects is the word of a command: the mask leaves open only the command's own fields. -/
theorem exists_encode_of_rowSelects {w : Word} {n : Nat} (h : rowSelects n w = true) : ∃ i, encode i = w := by
  match n, h with
  | 0, h => exact exists_encode_of_masked (i := .clr) h
  | 1, h => exact exists_encode_of_masked (i := .b64e) h
  | 2, h => exact exists_encode_of_masked (i := .b64d) h
  | 3, h =>
    have hmasked : w &&& 0xFFFFF3FF#32 = 0x00000003#32 := of_decide_eq_true h
    have hop : opField w = 3#4 := extractLsb'_of_masked hmasked (by decide)
    have hbits : w.extractLsb' 4 6 = 0#6 := extractLsb'_of_masked hmasked (by decide)
    have htext : textField w = false := by simpa [textField] using congrArg (·.getLsbD 12) hmasked
    obtain ⟨hmode, hpad⟩ := configBits_eq_zero_iff.1 hbits
    have hw := encodeFields_fields (extractLsb'_of_masked hmasked (by decide))
    rw [hop, hmode, hpad, htext] at hw
    exact ⟨.kdf _ _, hw⟩
  | 4, h => exact ⟨.enc _ _ _ _ _, encodeFields_of_masked (value := 0x00000004#32) (of_decide_eq_true h) rfl⟩
  | 5, h => exact ⟨.dec _ _ _ _ _, encodeFields_of_masked (value := 0x00000005#32) (of_decide_eq_true h) rfl⟩
  | 6, h => exact exists_encode_of_masked (i := .pwenc) h
  | 7, h => exact exists_encode_of_masked (i := .pwdec) h
  | n + 8, h => simp [rowSelects, opcodeRows] at h

theorem lt_of_rowSelects {w : Word} {n : Nat} (h : rowSelects n w = true) : n < 8 := by
  by_contra hn
  simp [rowSelects, opcodeRows, hn] at h

theorem rowSelects_encode (i : Instr) {n : Nat} (hn : n < 8) : rowSelects n (encode i) = true ↔ n = i.opcode := by
  cases i with
  | clr => exact Laws.TableRow.clr n hn
  | b64e => exact Laws.TableRow.b64e n hn
  | b64d => exact Laws.TableRow.b64d n hn
  | kdf hash ksize => exact Laws.TableRow.kdf hash ksize n hn
  | enc mode pad hash ksize text => exact Laws.TableRow.enc mode pad hash ksize text n hn
  | dec mode pad hash ksize text => exact Laws.TableRow.dec mode pad hash ksize text n hn
  | pwenc => exact Laws.TableRow.pwenc n hn
  | pwdec => exact Laws.TableRow.pwdec n hn

/-- Settles O15: a selected word is a command's word, and a command's word selects the row of its `OP` alone. -/
theorem opcodeRowsSelectTheirCommands : Obligations.OpcodeRowsSelectTheirCommands := by
  refine ⟨fun w n hn => ⟨fun h => ?_, ?_⟩, fun w n m hw hw' => ?_⟩
  · obtain ⟨i, rfl⟩ := exists_encode_of_rowSelects h
    exact ⟨i, decode_encode i, ((rowSelects_encode i hn).1 h).symm⟩
  · rintro ⟨i, hd, rfl⟩
    rw [← encode_of_decode hd]
    exact (rowSelects_encode i hn).2 rfl
  · obtain ⟨i, rfl⟩ := exists_encode_of_rowSelects hw
    exact ((rowSelects_encode i (lt_of_rowSelects hw)).1 hw).trans
      ((rowSelects_encode i (lt_of_rowSelects hw')).1 hw').symm

/-- Settles O17, by running the decoder on each word. -/
theorem wordsOfTheEncodingTableDecode : Obligations.WordsOfTheEncodingTableDecode := by
  unfold Obligations.WordsOfTheEncodingTableDecode
  decide

end Sys2Proof

namespace Sys2Proof.Machine

/-! ### Illegal words (rule R86) -/

/-- Settles O16: the fields of the statement are those the decoder tests, and an illegal word only settles. -/
theorem illegalWordsAreExactly : Obligations.IllegalWordsAreExactly :=
  ⟨fun _ => decode_eq_error_iff, fun s w _ h => (step_write_cmd s w).trans (commandWrite_error s h)⟩

/-! ### A command whose function fails (rules R87, R90) -/

/-- Bytes are drawn only by a command whose function succeeds. -/
theorem commandDraws_of_error {i : Instr} {s : State} {draw : Nat → Byte} {k : ErrKind}
    (h : commandFunction i draw s.key s.iv s.din = .error k) : commandDraws i s = 0 := by
  cases i with
  | enc mode pad hash ksize text =>
    simp only [commandDraws, encDraws]
    split
    · rfl
    · split
      · rename_i hc
        simp [commandFunction, encFunction, hc, Result.ok_bind] at h
      · rfl
  | clr | b64e | b64d | kdf | dec | pwenc | pwdec => rfl

theorem exec_of_error {i : Instr} {s : State} {k : ErrKind} (ho : s.ovf = false)
    (h : commandFunction i s.nextDraw s.key s.iv s.din = .error k) :
    exec i s = .next (s.settle .error (some k) []) := by
  have hi : i ≠ .clr := by
    rintro rfl
    cases h
  rw [exec_eq_frame i s hi, commandDraws_of_error h, h]
  exact congrArg _ (s.frame_error k ho)

/-- The refusals of rule R244: a reserved code, or CTS with a padding. -/
theorem cfgCheck_unsupported {mc pc : BitVec 3}
    (h : 5 ≤ mc.toNat ∨ 5 ≤ pc.toNat ∨ (mc = 4#3 ∧ pc ≠ 0#3)) :
    cfgCheck mc pc = .error .unsupportedConfiguration := by
  revert mc pc
  decide

/-- Settles O18: the configuration is checked before anything else, so it alone decides; and the word of a command
other than `ENC` and `DEC` has zero bits at `MODE` and `PAD`. -/
theorem reservedConfigurationIsUnsupported : Obligations.ReservedConfigurationIsUnsupported := by
  refine ⟨fun s mc pc hash ksize text ho hcfg => ?_, fun w h4 h5 hbits => ?_⟩
  · have hcheck := cfgCheck_unsupported hcfg
    rw [step_write_cmd, step_write_cmd, commandWrite_ok s (decode_encode _), commandWrite_ok s (decode_encode _)]
    exact ⟨exec_of_error ho (by simp [commandFunction, encFunction, encCheck, hcheck, Result.error_bind]),
      exec_of_error ho (by simp [commandFunction, decFunction, decCheck, hcheck, Result.error_bind])⟩
  · cases hd : decode w with
    | error x => exact ⟨x, rfl⟩
    | ok i =>
      obtain rfl := encode_of_decode hd
      cases i with
      | clr | b64e | b64d | pwenc | pwdec => exact absurd (by rfl) hbits
      | kdf hash ksize => exact absurd (configBits_eq_zero_iff.2 (by simp [encode])) hbits
      | enc => exact absurd (opField_encodeFields ..) h4
      | dec => exact absurd (opField_encodeFields ..) h5

/-! ### The command frame (rule R90) -/

/-- Settles O19, by the decoded word: an illegal one, `CLR`, or the four outcomes of the frame around a function. -/
theorem commandFrame : Obligations.CommandFrame := by
  intro s w
  rw [step_write_cmd]
  cases hd : decode w with
  | error x => exact ⟨_, commandWrite_error s hd, ⟨rfl, rfl, rfl⟩, rfl, rfl, rfl, rfl, rfl⟩
  | ok i =>
    rw [commandWrite_ok s hd]
    by_cases hi : i = .clr
    · subst hi
      exact ⟨_, exec_clr s, ⟨rfl, rfl, rfl⟩, rfl, rfl, rfl, rfl, rfl⟩
    refine ⟨_, exec_eq_frame i s hi, ?_⟩
    rcases State.frame_cases (s.advanceDraws (commandDraws i s)) (commandFunction i s.nextDraw s.key s.iv s.din) with
      ⟨ho, h⟩ | ⟨ho, k, hres, h⟩ | ⟨ho, v, hres, hv, h⟩ | ⟨ho, v, hres, hv, h⟩ <;>
      rw [State.advanceDraws_ovf] at ho <;> rw [h]
    · simp [ho]
    · simp [ho, hres]
    · simp [ho, hres, show s.cfg.outMax < v.length from hv]
    · simp [ho, hres, hi, Nat.not_lt.mpr (show v.length ≤ s.cfg.outMax from hv)]

/-! ### The buffers a command reads (rule R91) -/

/-- The frame empties the operand buffers whatever they hold. -/
theorem State.frame_operands (s : State) (k v d : Bytes) (r : Result Bytes) :
    { s with key := k, iv := v, din := d }.frame r = s.frame r := by
  simp only [State.frame, State.takeError, State.succeed, State.settle]

/-- Operands have a part in a command only through its function and its count of draws. -/
theorem exec_operands {i : Instr} {s : State} {k v d : Bytes}
    (hdraws : commandDraws i { s with key := k, iv := v, din := d } = commandDraws i s)
    (hres : commandFunction i s.nextDraw k v d = commandFunction i s.nextDraw s.key s.iv s.din) :
    exec i { s with key := k, iv := v, din := d } = exec i s := by
  by_cases hi : i = .clr
  · subst hi
    rfl
  · rw [exec_eq_frame i _ hi, exec_eq_frame i s hi, hdraws, ← hres]
    exact congrArg _ (State.frame_operands (s.advanceDraws (commandDraws i s)) k v d _)

theorem cfgCheck_ecb {pc : BitVec 3} {c : Mode × Padding} (h : cfgCheck 0#3 pc = .ok c) : c.1 = .ecb := by
  obtain ⟨hm, -⟩ := cfgCheck_eq_ok.1 h
  exact (Option.some.inj hm).symm

section
variable (pc : BitVec 3) (hash ksize text : Bool) (key iv iv' din : Bytes)

/-- In ECB no check reads the IV (44_modes.md rule R211). -/
theorem encCheck_ecb : encCheck 0#3 pc hash key iv din = encCheck 0#3 pc hash key iv' din := by
  unfold encCheck
  cases hc : cfgCheck 0#3 pc with
  | error k => rfl
  | ok c =>
    obtain ⟨m, p⟩ := c
    obtain rfl : m = .ecb := cfgCheck_ecb hc
    rfl

theorem decCheck_ecb : decCheck 0#3 pc hash text key iv din = decCheck 0#3 pc hash text key iv' din := by
  unfold decCheck
  cases hc : cfgCheck 0#3 pc with
  | error k => rfl
  | ok c =>
    obtain ⟨m, p⟩ := c
    obtain rfl : m = .ecb := cfgCheck_ecb hc
    rfl

/-- Nor does the transformation of `ENC` read it (rule R213). -/
theorem encFunction_ecb (draw : Nat → Byte) :
    encFunction 0#3 pc hash ksize text draw key iv din = encFunction 0#3 pc hash ksize text draw key iv' din := by
  unfold encFunction
  rw [encCheck_ecb pc hash key iv iv' din]
  cases hc : encCheck 0#3 pc hash key iv' din with
  | error k => rfl
  | ok c =>
    obtain ⟨m, p⟩ := c
    obtain ⟨hm, -⟩ := encCheck_eq_ok.1 hc
    obtain rfl : Mode.ecb = m := Option.some.inj hm
    rfl

theorem decFunction_ecb :
    decFunction 0#3 pc hash ksize text key iv din = decFunction 0#3 pc hash ksize text key iv' din := by
  unfold decFunction
  rw [decCheck_ecb pc hash text key iv iv' din]
  cases hc : decCheck 0#3 pc hash text key iv' din with
  | error k => rfl
  | ok c =>
    obtain ⟨m, p, y⟩ := c
    obtain ⟨hm, -⟩ := decCheck_eq_ok.1 hc
    obtain rfl : Mode.ecb = m := Option.some.inj hm
    rfl

end

/-- Settles O20: what a command's function does not take it does not read; of the two that take the IV, in ECB
neither reads it; and a raw key is its own effective key. -/
theorem unreadBuffersAreIgnored : Obligations.UnreadBuffersAreIgnored := by
  intro s k v d hash ksize text mc pc
  refine ⟨exec_operands rfl rfl, exec_operands rfl rfl, exec_operands rfl rfl, exec_operands rfl rfl,
    exec_operands ?_ (encFunction_ecb ..), exec_operands rfl (decFunction_ecb ..), exec_operands rfl rfl,
    exec_operands rfl rfl, ?_, ?_⟩
  · simp only [commandDraws, encDraws, encCheck_ecb pc hash s.key v s.iv s.din]
  · have hkey : effKey false ksize s.key = effKey false false s.key := rfl
    simp only [exec, execEnc, encFunction, encTransform, hkey]
  · have hkey : effKey false ksize s.key = effKey false false s.key := rfl
    simp only [exec, execDec, decFunction, hkey]

end Sys2Proof.Machine
end

-- The proofs of the family 40_codec.md.
section
/-! PROOFS. The base64 alphabet, the text of a sequence group by group, decoding as its inverse, and the commands
`B64E` and `B64D` (40_codec.md rules R111 to R119). -/

namespace Sys2Proof

/-! ### Illegal words with the `OP` of a command without fields (30_encoding.md rules R85, R86) -/

theorem opField_encode (i : Instr) : (opField (encode i)).toNat = i.opcode := by
  cases i <;> simp only [encode, opField_encodeFields] <;> rfl

/-- A command that alone has its `OP` has one word: any other word with that `OP` is illegal. -/
theorem decode_error_of_opcode {w : Word} {i : Instr} (honly : ∀ j : Instr, j.opcode = i.opcode → j = i)
    (hop : (opField w).toNat = i.opcode) (hw : w ≠ encode i) : ∃ x, decode w = .error x := by
  cases hd : decode w with
  | error x => exact ⟨x, rfl⟩
  | ok j =>
    obtain rfl := encode_of_decode hd
    rw [opField_encode] at hop
    exact absurd (congrArg encode (honly j hop)) hw

theorem eq_b64e_of_opcode (j : Instr) (h : j.opcode = Instr.b64e.opcode) : j = .b64e := by
  cases j with
  | b64e => rfl
  | clr | b64d | kdf | enc | dec | pwenc | pwdec => cases h

theorem eq_b64d_of_opcode (j : Instr) (h : j.opcode = Instr.b64d.opcode) : j = .b64d := by
  cases j with
  | b64d => rfl
  | clr | b64e | kdf | enc | dec | pwenc | pwdec => cases h

end Sys2Proof

namespace Sys2Proof.Machine

/-! ### The alphabet (rule R111) -/

theorem b64chr_toNat : ∀ i : BitVec 6, (b64chr i).toNat =
    if i.toNat ≤ 25 then 0x41 + i.toNat
    else if i.toNat ≤ 51 then 0x61 + (i.toNat - 26)
    else if i.toNat ≤ 61 then 0x30 + (i.toNat - 52)
    else if i.toNat = 62 then 0x2B else 0x2F := by
  decide

/-- Settles O21: the values by running through the 64 of them, the inverse by the codec's laws. -/
theorem alphabetIsInvertible : Obligations.AlphabetIsInvertible :=
  ⟨b64chr_toNat, b64val_b64chr, eq_b64chr_of_b64val, val_pad⟩

/-! ### The text by groups (rule R112) -/

@[simp] theorem encodeGroup_length (b0 b1 b2 : Byte) (n : Nat) : (encodeGroup b0 b1 b2 n).length = 4 := rfl

theorem b64enc_length (s : Bytes) : (b64enc s).length = 4 * ((s.length + 2) / 3) := by
  fun_induction b64enc s with
  | case1 => rfl
  | case2 b0 => simp
  | case3 b0 b1 => simp
  | case4 b0 b1 b2 rest ih =>
    simp only [List.length_append, List.length_cons, encodeGroup_length, ih]
    omega

/-- The characters of group `g` of the text of `s`, by the byte indices of rule R112. -/
def groupAt (s : Bytes) (g : Nat) : Bytes :=
  encodeGroup (s.getD (3 * g) 0#8) (s.getD (3 * g + 1) 0#8) (s.getD (3 * g + 2) 0#8) (min 3 (s.length - 3 * g))

/-- Three bytes in front move every group by one. -/
theorem groupAt_succ (b0 b1 b2 : Byte) (rest : Bytes) (g : Nat) :
    groupAt (b0 :: b1 :: b2 :: rest) (g + 1) = groupAt rest g := by
  have hlen : rest.length + 1 + 1 + 1 - (3 * g + 3) = rest.length - 3 * g := by omega
  simp only [groupAt, Nat.mul_succ, List.length_cons, hlen, Nat.add_right_comm _ 3, List.getD_cons_succ]

theorem groupAt_zero (b0 b1 b2 : Byte) (rest : Bytes) :
    groupAt (b0 :: b1 :: b2 :: rest) 0 = encodeGroup b0 b1 b2 3 := by
  simp [groupAt]

theorem sub_length_add_append (a r : Bytes) (i n : Nat) : sub (a ++ r) (a.length + i) n = sub r i n := by
  simp only [sub, List.drop_length_add_append]

/-- The text of `s` read at a group's place is that group's characters. -/
theorem sub_b64enc (s : Bytes) {g : Nat} (hg : g < (s.length + 2) / 3) : sub (b64enc s) (4 * g) 4 = groupAt s g := by
  fun_induction b64enc s generalizing g with
  | case1 => simp at hg
  | case2 b0 =>
    obtain rfl : g = 0 := by simpa using hg
    rfl
  | case3 b0 b1 =>
    obtain rfl : g = 0 := by simpa using hg
    rfl
  | case4 b0 b1 b2 rest ih =>
    cases g with
    | zero => rw [groupAt_zero]; rfl
    | succ g =>
      have hrest : g < (rest.length + 2) / 3 := by
        simp only [List.length_cons] at hg
        omega
      rw [groupAt_succ, ← ih hrest, Nat.mul_succ, Nat.add_comm]
      exact sub_length_add_append (encodeGroup b0 b1 b2 3) (b64enc rest) (4 * g) 4

/-- Settles O22, by the groups of `b64enc`: each has four characters, and those before group `g` hold `3 * g` bytes. -/
theorem encodedGroupsAreIndexed : Obligations.EncodedGroupsAreIndexed := by
  refine fun s => ⟨b64enc_length s, ?_⟩
  rintro g hg _ rfl _ rfl
  exact sub_b64enc s hg

/-! ### Decoding inverts encoding (rules R115, R116) -/

theorem b64dec_b64enc (b : Bytes) : b64dec (b64enc b) = .ok b := by
  fun_induction b64enc b with
  | case1 => rfl
  | case2 b0 => exact b64dec_group_one b0
  | case3 b0 b1 => exact b64dec_group_two b0 b1
  | case4 b0 b1 b2 rest ih =>
    rw [b64dec_group_three, ih]
    rfl

/-- One group in front of a text that decodes only as `b64enc`: a short group is the last, with nothing behind it. -/
theorem eq_b64enc_of_group {c0 c1 c2 c3 : Byte} {rest head tail : Bytes}
    (hhead : decodeGroup c0 c1 c2 c3 rest.isEmpty = .ok head) (hrest : rest = b64enc tail)
    (hempty : rest = [] → tail = []) : c0 :: c1 :: c2 :: c3 :: rest = b64enc (head ++ tail) := by
  rcases decodeGroup_ok hhead with ⟨b0, b1, b2, rfl, hgroup⟩ | ⟨hlast, b0, b1, rfl, hgroup⟩ | ⟨hlast, b0, rfl, hgroup⟩
  · rw [hrest]
    exact (congrArg (· ++ b64enc tail) hgroup).symm
  · obtain rfl := List.isEmpty_iff.1 hlast
    rw [hempty rfl]
    exact hgroup.symm
  · obtain rfl := List.isEmpty_iff.1 hlast
    rw [hempty rfl]
    exact hgroup.symm

theorem eq_b64enc_of_b64dec {t b : Bytes} (h : b64dec t = .ok b) : t = b64enc b := by
  fun_induction b64dec t generalizing b with
  | case1 =>
    cases h
    rfl
  | case2 c0 c1 c2 c3 rest ih =>
    obtain ⟨head, hhead, h⟩ := Result.bind_eq_ok.1 h
    obtain ⟨tail, htail, h⟩ := Result.bind_eq_ok.1 h
    cases h
    refine eq_b64enc_of_group hhead (ih htail) ?_
    rintro rfl
    cases htail
    rfl
  | case3 => cases h

/-- Settles O23, by the groups of `b64enc` in the one direction and of `b64dec` in the other. -/
theorem codecRoundTripAndInjectivity : Obligations.CodecRoundTripAndInjectivity :=
  ⟨b64dec_b64enc, fun _ _ => eq_b64enc_of_b64dec⟩

/-! ### The only error of decoding (rule R115) -/

/-- A sequence of checks fails as its first does, or as the rest does on its value. -/
theorem Result.bind_eq_error {α β : Type} {x : Result α} {f : α → Result β} {k : ErrKind} :
    (x >>= f) = .error k ↔ x = .error k ∨ ∃ a, x = .ok a ∧ f a = .error k := by
  cases x <;> simp [Result.ok_bind, Result.error_bind]

theorem dataChar_eq_error {c : Byte} {k : ErrKind} (h : dataChar c = .error k) : k = .malformedEncoding := by
  unfold dataChar at h
  split at h <;> cases h
  rfl

theorem optChar_eq_error {c : Byte} {p : Bool} {k : ErrKind} (h : optChar c p = .error k) :
    k = .malformedEncoding := by
  cases p with
  | true => exact dataChar_eq_error h
  | false => cases h

theorem decodeGroup_eq_error {c0 c1 c2 c3 : Byte} {final : Bool} {k : ErrKind}
    (h : decodeGroup c0 c1 c2 c3 final = .error k) : k = .malformedEncoding := by
  unfold decodeGroup at h
  simp only [Result.bind_eq_error] at h
  rcases h with h | ⟨v0, -, h | ⟨v1, -, h | ⟨v2, -, h | ⟨v3, -, h⟩⟩⟩⟩
  · exact dataChar_eq_error h
  · exact dataChar_eq_error h
  · exact optChar_eq_error h
  · exact optChar_eq_error h
  · split at h
    · cases h
      rfl
    · split at h <;> cases h
      rfl

theorem b64dec_eq_error {t : Bytes} {k : ErrKind} (h : b64dec t = .error k) : k = .malformedEncoding := by
  fun_induction b64dec t with
  | case1 => cases h
  | case2 c0 c1 c2 c3 rest ih =>
    rcases Result.bind_eq_error.1 h with h | ⟨head, -, h⟩
    · exact decodeGroup_eq_error h
    · rcases Result.bind_eq_error.1 h with h | ⟨tail, -, h⟩
      · exact ih h
      · cases h
  | case3 =>
    cases h
    rfl

/-- A text that no bytes have does not decode. -/
theorem b64dec_of_ne_b64enc {t : Bytes} (h : ∀ b, t ≠ b64enc b) : b64dec t = .error .malformedEncoding := by
  cases hd : b64dec t with
  | ok b => exact absurd (eq_b64enc_of_b64dec hd) (h b)
  | error k => rw [b64dec_eq_error hd]

/-! ### `B64E` and `B64D` (rules R118, R119) -/

theorem exec_b64e (s : State) : exec .b64e s = .next (s.frame (.ok (b64enc s.din))) := rfl

theorem exec_b64d (s : State) : exec .b64d s = .next (s.frame (b64dec s.din)) := rfl

/-- Settles O24: the frame around `b64enc`, whose length decides whether it fits. -/
theorem b64eCompletes : Obligations.B64eCompletes := by
  intro s
  rw [← b64enc_length]
  refine ⟨fun ho hfits => ?_, fun hover => ?_, fun w => decode_error_of_opcode eq_b64e_of_opcode⟩
  · rw [exec_b64e, s.frame_fits _ ho hfits, State.succeed_eq_settle]
  · cases ho : s.ovf with
    | true => exact exec_of_ovf ho (by decide)
    | false =>
      have hlong : s.cfg.outMax < (b64enc s.din).length := by simpa [ho] using hover
      rw [exec_b64e, s.frame_too_long _ ho hlong, State.takeError_eq_settle]

/-- Settles O25: the frame around `b64dec`, which on the text of `b` is `b` and on any other text the one error. -/
theorem b64dCompletes : Obligations.B64dCompletes := by
  refine fun s => ⟨fun b ho htext hfits => ?_, fun ho hno => ?_, fun b hover => ?_,
    fun w => decode_error_of_opcode eq_b64d_of_opcode⟩
  · rw [exec_b64d, htext, b64dec_b64enc, s.frame_fits b ho hfits, State.succeed_eq_settle]
  · rw [exec_b64d, b64dec_of_ne_b64enc hno, s.frame_error _ ho, State.takeError_eq_settle]
  · cases ho : s.ovf with
    | true => exact exec_of_ovf ho (by decide)
    | false =>
      obtain ⟨htext, hlong⟩ : s.din = b64enc b ∧ s.cfg.outMax < b.length := by simpa [ho] using hover
      rw [exec_b64d, htext, b64dec_b64enc, s.frame_too_long b ho hlong, State.takeError_eq_settle]

end Sys2Proof.Machine
end

-- The proofs of the family 41_key_derivation.md.
section
/-! PROOFS. The padded message and the digest length of `H128`, the derived key's length, and the command `KDF`
(41_key_derivation.md rules R130, R131, R145 to R147). -/

namespace Sys2Proof

/-! ### The words of `KDF` (rule R147) -/

/-- Bits [31:12], above the fields `KDF` uses, are `RSV` and `TEXT`. -/
theorem upperBits_eq_zero_iff {w : Word} : w.extractLsb' 12 20 = 0#20 ↔ rsvField w = 0#19 ∧ textField w = false := by
  simp only [rsvField, textField, ← BitVec.toNat_inj, BitVec.extractLsb'_toNat, Nat.shiftRight_eq_div_pow,
    BitVec.getLsbD, Nat.testBit_eq_decide_div_mod_eq, BitVec.toNat_ofNat, decide_eq_false_iff_not]
  omega

theorem encode_kdf (hash ksize : Bool) : encode (.kdf hash ksize) =
    0x3#32 ||| (BitVec.ofBool hash).setWidth 32 <<< 10 ||| (BitVec.ofBool ksize).setWidth 32 <<< 11 := by
  cases hash <;> cases ksize <;> rfl

/-- A word of `OP` 3 with any bit set outside `OP`, `HASH` and `KSIZE` is illegal. -/
theorem decode_error_of_kdf_opcode {w : Word} (hop : (opField w).toNat = 3)
    (hbits : w.extractLsb' 4 6 ≠ 0#6 ∨ w.extractLsb' 12 20 ≠ 0#20) : ∃ x, decode w = .error x := by
  rw [decode_eq_error_iff]
  rcases hbits with hconfig | hupper
  · exact .inr (.inr (.inr ⟨hop, .inl hconfig⟩))
  · by_cases hr : rsvField w = 0#19
    · have htext : textField w = true := by simpa [upperBits_eq_zero_iff, hr] using hupper
      exact .inr (.inr (.inr ⟨hop, .inr htext⟩))
    · exact .inl hr

end Sys2Proof

namespace Sys2Proof.Machine

/-! ### The padded message (rule R131) -/

@[simp] theorem len64le_length (x : BitVec 64) : (len64le x).length = 8 := by simp [len64le]

/-- Byte `i` of `len64le` is the digit of weight `256 ^ i`. -/
theorem len64le_getElem_toNat (x : BitVec 64) {i : Nat} (h : i < (len64le x).length) :
    ((len64le x)[i]).toNat = x.toNat / 256 ^ i % 256 := by
  have hweight : 2 ^ (8 * i) = 256 ^ i := pow_mul 2 8 i
  simp only [len64le, List.getElem_map, List.getElem_range, BitVec.extractLsb'_toNat, Nat.shiftRight_eq_div_pow,
    hweight]

theorem hashZeros_lt (n : Nat) : hashZeros n < 64 := by
  unfold hashZeros
  omega

@[simp] theorem hashPad_length (m : Bytes) : (hashPad m).length = m.length + 1 + hashZeros m.length + 8 := by
  simp only [hashPad, List.length_append, List.length_singleton, rep_length, len64le_length]

/-- The zero bytes fill the message, its one byte 0x80 and its eight length bytes up to whole blocks. -/
theorem hashPad_length_mod (m : Bytes) : (hashPad m).length % 64 = 0 := by
  rw [hashPad_length, hashZeros]
  omega

/-- Settles O26, by the parts of `hashPad`; a length above 0 that is a multiple of 64 is at least 64. -/
theorem hashMessagePadding : Obligations.HashMessagePadding := by
  intro m
  refine ⟨hashZeros m.length, len64le (BitVec.ofNat 64 (8 * m.length)), hashZeros_lt _, rfl, len64le_length _,
    fun i h => ?_, hashPad_length_mod m, ?_⟩
  · rw [len64le_getElem_toNat, BitVec.toNat_ofNat]
  · have hmod := hashPad_length_mod m
    have hlen := hashPad_length m
    omega

/-! ### The digest and the derived key (rules R130, R145) -/

@[simp] theorem wordBytesLe_length (w : Word) : (wordBytesLe w).length = 4 := rfl

/-- The digest is four words, whatever the blocks made of them. -/
@[simp] theorem h128_length (m : Bytes) : (h128 m).length = 16 := by
  simp only [h128, List.length_append, wordBytesLe_length]

theorem fit_false (h : Bytes) : fit h false = h.take 8 := rfl

theorem fit_true (h : Bytes) : fit h true = h ++ h.take 8 := rfl

theorem fit_length {h : Bytes} (hlen : h.length = 16) (ksize : Bool) : (fit h ksize).length = tlen ksize := by
  cases ksize with
  | false => rw [fit_false, List.length_take, hlen]; rfl
  | true => rw [fit_true, List.length_append, List.length_take, hlen]; rfl

/-- Settles O27, by the length of a digest and the two forms of `fit`. -/
theorem derivedKeyHasTargetLength : Obligations.DerivedKeyHasTargetLength :=
  fun m ksize => ⟨h128_length m, fit_length (h128_length m) ksize, fit_false _, fit_true _⟩

/-! ### `KDF` (rules R146, R147) -/

theorem deriveKey_hashed {pp : Bytes} (h : pp ≠ []) (ksize : Bool) :
    deriveKey pp true ksize = .ok (fit (h128 pp) ksize) := by
  simp [deriveKey, h]

theorem deriveKey_hashed_empty (ksize : Bool) : deriveKey [] true ksize = .error .nullOrEmptyInput := rfl

theorem deriveKey_raw {pp : Bytes} {ksize : Bool} (h : pp.length = tlen ksize) : deriveKey pp false ksize = .ok pp := by
  simp [deriveKey, h]

theorem deriveKey_raw_wrong_length {pp : Bytes} {ksize : Bool} (h : pp.length ≠ tlen ksize) :
    deriveKey pp false ksize = .error .invalidKeyLength := by
  simp [deriveKey, h]

section
variable {s : State} {hash ksize : Bool}

theorem exec_kdf : exec (.kdf hash ksize) s = .next (s.frame (deriveKey s.key hash ksize)) := rfl

/-- A key that derivation gives has the target length. -/
theorem deriveKey_length {pp v : Bytes} (h : deriveKey pp hash ksize = .ok v) : v.length = tlen ksize := by
  cases hash with
  | true =>
    by_cases hpp : pp = []
    · rw [hpp, deriveKey_hashed_empty] at h
      cases h
    · rw [deriveKey_hashed hpp] at h
      cases h
      exact fit_length (h128_length pp) ksize
  | false =>
    by_cases hpp : pp.length = tlen ksize
    · rw [deriveKey_raw hpp] at h
      cases h
      exact hpp
    · rw [deriveKey_raw_wrong_length hpp] at h
      cases h

/-- `KDF` with a key that derivation gives: the target length alone decides whether it fits `DOUT`. -/
theorem exec_kdf_fits {v : Bytes} (ho : s.ovf = false) (hv : deriveKey s.key hash ksize = .ok v)
    (hfits : tlen ksize ≤ s.cfg.outMax) : exec (.kdf hash ksize) s = .next (s.settle .done none v) := by
  rw [← deriveKey_length hv] at hfits
  rw [exec_kdf, hv, s.frame_fits v ho hfits, State.succeed_eq_settle]

theorem exec_kdf_too_long {v : Bytes} (ho : s.ovf = false) (hv : deriveKey s.key hash ksize = .ok v)
    (hlong : s.cfg.outMax < tlen ksize) :
    exec (.kdf hash ksize) s = .next (s.settle .error (some .bufferOverflow) []) := by
  rw [← deriveKey_length hv] at hlong
  rw [exec_kdf, hv, s.frame_too_long v ho hlong, State.takeError_eq_settle]

end

/-- Settles O28: its word is the encoding, and in each state the frame goes by what `deriveKey` answers. -/
theorem kdfCompletes : Obligations.KdfCompletes := by
  refine ⟨fun hash ksize => ?_, fun s hash ksize ho => exec_of_ovf ho (by simp),
    fun w => decode_error_of_kdf_opcode, fun s ksize ho => ⟨?_, ?_, ?_, ?_, ?_, ?_⟩⟩
  · rw [← encode_kdf]
    exact decode_encode _
  · exact fun hkey hfits => exec_kdf_fits ho (deriveKey_hashed hkey ksize) hfits
  · exact fun hkey hfits => exec_kdf_fits ho (deriveKey_raw hkey) hfits
  · exact fun hkey => exec_of_error ho (by rw [hkey]; exact deriveKey_hashed_empty ksize)
  · exact fun hkey => exec_of_error ho (deriveKey_raw_wrong_length hkey)
  · exact fun hkey hlong => exec_kdf_too_long ho (deriveKey_hashed hkey ksize) hlong
  · exact fun hkey hlong => exec_kdf_too_long ho (deriveKey_raw hkey) hlong

end Sys2Proof.Machine
end

-- The proofs of the family 42_des_core.md.
section
/-! PROOFS. DES and triple DES as inverse pairs, the parity bits of a key, and the selection of the cipher by the
key's length (42_des_core.md rules R170 to R173). -/

namespace Sys2Proof.Machine

/-! ### Decryption inverts encryption (rules R170, R171) -/

theorem desDec_desEnc (k : Bytes) {x : Bytes} (hx : x.length = 8) : desDec k (desEnc k x) = x := by
  rw [desDec, desEnc, bitsOfBlock_blockOfBits, desBits_reverse, blockOfBits_bitsOfBlock x hx]

/-- The round keys are also the reverse of the reversed ones, so encryption undoes decryption. -/
theorem desEnc_desDec (k : Bytes) {x : Bytes} (hx : x.length = 8) : desEnc k (desDec k x) = x := by
  have hinv := desBits_reverse (keySchedule (bitsOfBlock k)).reverse (bitsOfBlock x)
  rw [List.reverse_reverse] at hinv
  rw [desDec, desEnc, bitsOfBlock_blockOfBits, hinv, blockOfBits_bitsOfBlock x hx]

/-- Settles O29, by the Feistel rounds undone under the reversed round keys. -/
theorem desDecryptionInvertsEncryption : Obligations.DesDecryptionInvertsEncryption :=
  ⟨fun _ _ => rfl, fun k _ hx => ⟨desDec_desEnc k hx, desEnc_desDec k hx⟩⟩

theorem tdeaDec_tdeaEnc (k : Bytes) {x : Bytes} (hx : x.length = 8) : tdeaDec k (tdeaEnc k x) = x := by
  rw [tdeaDec, tdeaEnc, desDec_desEnc _ (desDec_length ..), desEnc_desDec _ (desEnc_length ..), desDec_desEnc _ hx]

/-- The three parts of a key made of three eight-byte keys. -/
theorem sub_threeKeys {a b c : Bytes} (ha : a.length = 8) (hb : b.length = 8) (hc : c.length = 8) :
    sub (a ++ b ++ c) 0 8 = a ∧ sub (a ++ b ++ c) 8 8 = b ∧ sub (a ++ b ++ c) 16 8 = c := by
  have hsecond : sub (a ++ (b ++ c)) 8 8 = sub (b ++ c) 0 8 := sub_succ_append a (b ++ c) 0 ha
  have hthird : sub (a ++ (b ++ c)) 16 8 = sub (b ++ c) 8 8 := sub_succ_append a (b ++ c) 1 ha
  have hlast : sub (b ++ c) 8 8 = sub c 0 8 := sub_succ_append b c 0 hb
  have hself : sub c 0 8 = c := List.take_of_length_le hc.le
  rw [List.append_assoc]
  exact ⟨sub_zero_append a _ ha, hsecond.trans (sub_zero_append b c hb), hthird.trans (hlast.trans hself)⟩

theorem tdeaEnc_equalKeys {j x : Bytes} (hj : j.length = 8) (hx : x.length = 8) :
    tdeaEnc (j ++ j ++ j) x = desEnc j x := by
  obtain ⟨h1, h2, h3⟩ := sub_threeKeys hj hj hj
  rw [tdeaEnc, h1, h2, h3, desDec_desEnc j hx]

/-- A derived key of 24 bytes repeats the digest's first eight as its last (41_key_derivation.md rule R145). -/
theorem sub_fit_true {h : Bytes} (hh : h.length = 16) : sub (fit h true) 16 8 = sub (fit h true) 0 8 := by
  have hlo : (h.take 8).length = 8 := by simp [hh]
  have hhi : (h.drop 8).length = 8 := by simp [hh]
  have hfit : fit h true = h.take 8 ++ h.drop 8 ++ h.take 8 := by rw [fit_true, List.take_append_drop]
  obtain ⟨h1, -, h3⟩ := sub_threeKeys hlo hhi hlo
  rw [hfit, h1, h3]

/-- Settles O30: with equal keys the first two stages of the cascade cancel. -/
theorem tripleDesIsEncryptDecryptEncrypt : Obligations.TripleDesIsEncryptDecryptEncrypt :=
  ⟨fun _ _ => ⟨rfl, rfl⟩, fun k _ _ hx => tdeaDec_tdeaEnc k hx, fun _ _ hj hx => tdeaEnc_equalKeys hj hx,
    fun _ hh => sub_fit_true hh⟩

/-! ### The parity bits of a key (rule R172) -/

/-- Two keys that differ at most in the least significant bit of each byte. -/
def EqualButParity (k k' : Bytes) : Prop := ∀ i : Nat, k.getD i 0#8 >>> 1 = k'.getD i 0#8 >>> 1

/-- Without its last bit a byte still has its first seven. -/
theorem getMsbD_eq_of_shiftRight_one {b c : Byte} (h : b >>> 1 = c >>> 1) {j : Nat} (hj : j < 7) :
    b.getMsbD j = c.getMsbD j := by
  have hbit := congrArg (fun x : Byte => x.getMsbD (j + 1)) h
  simpa [BitVec.getMsbD_ushiftRight, show j + 1 < 8 by omega] using hbit

theorem sub_getD (s : Bytes) (i n j : Nat) : (sub s i n).getD j 0#8 = if j < n then s.getD (i + j) 0#8 else 0#8 := by
  simp only [sub, List.getD_eq_getElem?_getD, List.getElem?_take, List.getElem?_drop]
  split <;> rfl

theorem EqualButParity.on_sub {k k' : Bytes} (h : EqualButParity k k') (i n : Nat) :
    EqualButParity (sub k i n) (sub k' i n) := by
  intro j
  rw [sub_getD, sub_getD]
  split
  · exact h (i + j)
  · rfl

/-- `PC1` picks no bit of place 8 in its byte, so the round keys are the same. -/
theorem EqualButParity.keySchedule_eq {k k' : Bytes} (h : EqualButParity k k') (hk : k.length = 8)
    (hk' : k'.length = 8) : keySchedule (bitsOfBlock k) = keySchedule (bitsOfBlock k') := by
  refine keySchedule_congr _ _ fun i hi hplace => ?_
  rw [bitsOfBlock_getMsbD k hk i hi, bitsOfBlock_getMsbD k' hk' i hi]
  exact getMsbD_eq_of_shiftRight_one (h (i / 8)) (by omega)

theorem EqualButParity.des_eq {k k' : Bytes} (h : EqualButParity k k') (hk : k.length = 8) (hk' : k'.length = 8)
    (x : Bytes) : desEnc k x = desEnc k' x ∧ desDec k x = desDec k' x := by
  have hkeys := h.keySchedule_eq hk hk'
  exact ⟨by rw [desEnc, desEnc, hkeys], by rw [desDec, desDec, hkeys]⟩

theorem sub_length_eight {k : Bytes} {i : Nat} (h : i + 8 ≤ k.length) : (sub k i 8).length = 8 := by
  rw [sub, List.length_take, List.length_drop]
  omega

/-- Each of the three keys of the cascade inherits the agreement. -/
theorem EqualButParity.tdea_eq {k k' : Bytes} (h : EqualButParity k k') (hk : k.length = 24) (hk' : k'.length = 24)
    (x : Bytes) : tdeaEnc k x = tdeaEnc k' x ∧ tdeaDec k x = tdeaDec k' x := by
  have hpart (i : Nat) (hi : i ≤ 16) (y : Bytes) :
      desEnc (sub k i 8) y = desEnc (sub k' i 8) y ∧
      desDec (sub k i 8) y = desDec (sub k' i 8) y :=
    (h.on_sub i 8).des_eq (sub_length_eight (by omega)) (sub_length_eight (by omega)) y
  constructor
  · rw [tdeaEnc, tdeaEnc, (hpart 0 (by decide) _).1, (hpart 8 (by decide) _).2, (hpart 16 (by decide) _).1]
  · rw [tdeaDec, tdeaDec, (hpart 16 (by decide) _).2, (hpart 8 (by decide) _).1, (hpart 0 (by decide) _).2]

/-! ### The cipher the key's length selects (rule R173) -/

theorem block_of_keySingle {k : Bytes} (hk : k.length = 8) (x : Bytes) :
    blockEnc k x = desEnc k x ∧ blockDec k x = desDec k x := by
  simp [blockEnc, blockDec, hk]

theorem block_of_keyTriple {k : Bytes} (hk : k.length = 24) (x : Bytes) :
    blockEnc k x = tdeaEnc k x ∧ blockDec k x = tdeaDec k x := by
  simp [blockEnc, blockDec, hk]

/-- Settles O31, for each of the two ciphers; and the key check looks at the length alone. -/
theorem keyParityBitsTakeNoPart : Obligations.KeyParityBitsTakeNoPart := by
  refine ⟨fun k k' x hk hlen hparity => ?_, fun k hk => keyCheck_eq_ok.2 hk⟩
  have heq : EqualButParity k k' := hparity
  rcases hk with hk | hk
  · obtain ⟨henc, hdec⟩ := block_of_keySingle hk x
    obtain ⟨henc', hdec'⟩ := block_of_keySingle (hlen.trans hk) x
    rw [henc, hdec, henc', hdec']
    exact heq.des_eq hk (hlen.trans hk) x
  · obtain ⟨henc, hdec⟩ := block_of_keyTriple hk x
    obtain ⟨henc', hdec'⟩ := block_of_keyTriple (hlen.trans hk) x
    rw [henc, hdec, henc', hdec']
    exact heq.tdea_eq hk (hlen.trans hk) x

theorem keyCheck_raw_wrong_length {key : Bytes} (h8 : key.length ≠ 8) (h24 : key.length ≠ 24) :
    keyCheck false key = .error .invalidKeyLength := by
  simp [keyCheck, h8, h24]

section
variable {mc pc : BitVec 3} {hash : Bool} {key : Bytes} {c : Mode × Padding} {e : ErrKind}

/-- The key is checked right after the configuration (45_cipher_commands.md rule R240), so its error decides. -/
theorem encFunction_of_keyCheck_error (ksize text : Bool) (draw : Nat → Byte) (iv din : Bytes)
    (hcfg : cfgCheck mc pc = .ok c) (hkey : keyCheck hash key = .error e) :
    encFunction mc pc hash ksize text draw key iv din = .error e := by
  simp only [encFunction, encCheck, hcfg, hkey, Result.ok_bind, Result.error_bind]

theorem decFunction_of_keyCheck_error (ksize text : Bool) (iv din : Bytes)
    (hcfg : cfgCheck mc pc = .ok c) (hkey : keyCheck hash key = .error e) :
    decFunction mc pc hash ksize text key iv din = .error e := by
  simp only [decFunction, decCheck, hcfg, hkey, Result.ok_bind, Result.error_bind]

end

/-- Settles O32: a length of 8 or 24 selects the cipher, and any other fails the key check of both commands. -/
theorem cipherSelectedByKeyLength : Obligations.CipherSelectedByKeyLength := by
  refine ⟨fun k x hk => block_of_keySingle hk x, fun k x hk => block_of_keyTriple hk x,
    fun s mc pc m p ksize text ho hm hp hsup h8 h24 => ?_⟩
  have hcfg : cfgCheck mc pc = .ok (m, p) := cfgCheck_eq_ok.2 ⟨hm, hp, hsup⟩
  have hkey := keyCheck_raw_wrong_length h8 h24
  exact ⟨exec_of_error ho (encFunction_of_keyCheck_error ksize text _ s.iv s.din hcfg hkey),
    exec_of_error ho (decFunction_of_keyCheck_error ksize text s.iv s.din hcfg hkey)⟩

end Sys2Proof.Machine
end

-- The proofs of the family 43_padding.md.
section
/-! PROOFS. What each padding scheme adds, what `unpad` accepts, the round trip, and which results depend on a draw
(43_padding.md rules R191, R196 to R198; 60_exceptions.md rule R311). -/

namespace Sys2Proof.Machine

/-! ### The padded plaintext (rule R191) -/

theorem prefix_pad (scheme : Padding) (draw : Nat → Byte) (p : Bytes) : p <+: pad scheme draw p := by
  cases scheme with
  | none => exact List.prefix_rfl
  | zeros | pkcs7 => exact List.prefix_append ..
  | ansix923 | iso10126 => exact (List.prefix_append ..).trans (List.prefix_append ..)

theorem pad_length (scheme : Padding) (draw : Nat → Byte) (p : Bytes) :
    (pad scheme draw p).length = paddedLength scheme p.length := by
  cases scheme <;>
    simp only [pad, paddedLength, padCount, List.length_append, rep_length, List.length_map, List.length_range,
      List.length_singleton] <;>
    omega

theorem paddedLength_mod {scheme : Padding} {n : Nat} (h : scheme = .none → n % 8 = 0) :
    paddedLength scheme n % 8 = 0 := by
  cases scheme with
  | none => exact h rfl
  | zeros | pkcs7 | ansix923 | iso10126 => exact Nat.mul_mod_right ..

/-- The schemes that write their own count of bytes, so that `unpad` can find it (rule R191). -/
abbrev Padding.SelfDescribing (scheme : Padding) : Prop := scheme ∈ [Padding.pkcs7, .ansix923, .iso10126]

theorem Padding.SelfDescribing.cases {scheme : Padding} (h : scheme.SelfDescribing) :
    scheme = .pkcs7 ∨ scheme = .ansix923 ∨ scheme = .iso10126 := by simpa using h

theorem Padding.SelfDescribing.paddedLength_eq {scheme : Padding} (h : scheme.SelfDescribing) (n : Nat) :
    paddedLength scheme n = 8 * (n / 8 + 1) := by
  rcases h.cases with rfl | rfl | rfl <;> rfl

/-- Settles O33: the layouts are the definition's, the rest is `prefix_pad` and `pad_length`. -/
theorem paddingLayouts : Obligations.PaddingLayouts := by
  rintro draw p r n rfl rfl
  refine ⟨rfl, rfl, rfl, rfl, rfl, fun scheme hnone => ⟨?_, ?_⟩, pad_length .zeros draw p, fun scheme hs => ?_⟩
  · rw [pad_length]
    exact paddedLength_mod hnone
  · exact (List.prefix_iff_eq_take.1 (prefix_pad scheme draw p)).symm
  · have hlen := Padding.SelfDescribing.paddedLength_eq hs p.length
    rw [pad_length, hlen]
    exact ⟨rfl, by omega⟩

/-! ### A sequence that ends in its count (rules R191, R197) -/

/-- `x` is `v`, then `n` bytes of padding: a filler and the count. The three self-describing schemes differ in the
filler alone. -/
structure PaddedBy (x v : Bytes) (n : Nat) (filler : Bytes) : Prop where
  pos : 1 ≤ n
  le : n ≤ 8
  length : filler.length = n - 1
  eq : x = v ++ filler ++ [byteOf n]

/-- The filler each self-describing scheme allows before the count. -/
def FillerOk : Padding → Nat → Bytes → Prop
  | .pkcs7, n, filler => filler = rep (byteOf n) (n - 1)
  | .ansix923, n, filler => filler = rep 0x00#8 (n - 1)
  | .iso10126, _, _ => True
  | .none, _, _ | .zeros, _, _ => False

theorem all_beq_iff {b : Byte} {f : Bytes} {m : Nat} (h : f.length = m) : f.all (· == b) = true ↔ f = rep b m := by
  simp [rep, List.eq_replicate_iff, h]

/-- `PKCS7` repeats the count: its filler and its count byte together are one run. -/
theorem rep_byteOf_eq {n : Nat} (h : 1 ≤ n) : rep (byteOf n) n = rep (byteOf n) (n - 1) ++ [byteOf n] := by
  obtain ⟨m, rfl⟩ := Nat.exists_eq_add_of_le' h
  exact List.replicate_succ'

section
variable {x v w : Bytes} {n : Nat} {filler : Bytes} {scheme : Padding}

theorem PaddedBy.count (h : PaddedBy x v n filler) : (x.getLastD 0#8).toNat = n := by
  rw [h.eq, List.getLastD_concat, byteOf_toNat h.le]

theorem PaddedBy.parts (h : PaddedBy x v n filler) :
    x.take (x.length - n) = v ∧ x.drop (x.length - n) = filler ++ [byteOf n] := by
  have hn : (filler ++ [byteOf n]).length = n := by
    rw [List.length_append, h.length, List.length_singleton, Nat.sub_add_cancel h.pos]
  have hparts := parts_of_append v (filler ++ [byteOf n])
  rwa [hn, ← List.append_assoc, ← h.eq] at hparts

theorem checked_eq_ok {c : Prop} [Decidable c] {k : ErrKind} :
    (if c then .ok v else .error k : Result Bytes) = .ok w ↔ c ∧ v = w := by
  split <;> simp [*]

/-- On a sequence that ends in its count, `unpad` looks at the filler alone. -/
theorem PaddedBy.unpad_eq_ok (h : PaddedBy x v n filler) (hs : scheme.SelfDescribing) :
    unpad scheme x = .ok w ↔ FillerOk scheme n filler ∧ v = w := by
  obtain ⟨htake, hdrop⟩ := h.parts
  rcases hs.cases with rfl | rfl | rfl <;>
    simp only [unpad, h.count, htake, hdrop, h.pos, h.le, true_and, checked_eq_ok, FillerOk]
  · rw [← all_beq_iff h.length]
    simp
  · rw [← all_beq_iff h.length]
    simp

/-- A sequence whose last byte is a count within it ends in its count. -/
theorem exists_paddedBy (h1 : 1 ≤ (x.getLastD 0#8).toNat) (h8 : (x.getLastD 0#8).toNat ≤ 8) (hx : 8 ≤ x.length) :
    ∃ v filler, PaddedBy x v (x.getLastD 0#8).toNat filler := by
  generalize hn : (x.getLastD 0#8).toNat = n at h1 h8
  obtain ⟨hcut, hlen⟩ := take_append_last x n (h8.trans hx)
  have hlast := getLastD_drop x n h1 (h8.trans hx)
  obtain hnil | ⟨filler, b, htail⟩ := List.eq_nil_or_concat' (x.drop (x.length - n))
  · rw [hnil, List.length_nil] at hlen
    omega
  · have hb : b = byteOf n := by
      rw [htail, List.getLastD_concat] at hlast
      rw [← hn, ← hlast, byteOf, BitVec.ofNat_toNat, BitVec.setWidth_eq]
    rw [htail, hb] at hcut hlen
    rw [List.length_append, List.length_singleton] at hlen
    exact ⟨x.take (x.length - n), filler, h1, h8, by omega, by rw [List.append_assoc]; exact hcut⟩

theorem count_range_of_unpad (hs : scheme.SelfDescribing) (h : unpad scheme x = .ok v) :
    1 ≤ (x.getLastD 0#8).toNat ∧ (x.getLastD 0#8).toNat ≤ 8 := by
  rcases hs.cases with rfl | rfl | rfl
  · exact (checked_eq_ok.1 h).1.imp_right And.left
  · exact (checked_eq_ok.1 h).1.imp_right And.left
  · exact (checked_eq_ok.1 h).1

/-- What `unpad` accepts under a self-describing scheme. -/
theorem unpad_eq_ok_iff (hs : scheme.SelfDescribing) (hx : 8 ≤ x.length) :
    unpad scheme x = .ok v ↔ ∃ n filler, PaddedBy x v n filler ∧ FillerOk scheme n filler := by
  constructor
  · intro h
    obtain ⟨h1, h8⟩ := count_range_of_unpad hs h
    obtain ⟨w, filler, hp⟩ := exists_paddedBy h1 h8 hx
    obtain ⟨hfill, rfl⟩ := (hp.unpad_eq_ok hs).1 h
    exact ⟨_, filler, hp, hfill⟩
  · rintro ⟨n, filler, hp, hfill⟩
    exact (hp.unpad_eq_ok hs).2 ⟨hfill, rfl⟩

theorem unpad_eq_error {k : ErrKind} (h : unpad scheme x = .error k) : k = .paddingValidationFailed := by
  cases scheme <;> simp only [unpad] at h
  case none | zeros => cases h
  case pkcs7 | ansix923 | iso10126 =>
    split at h
    · cases h
    · exact (Except.error.inj h).symm

end

/-- Settles O34: a self-describing scheme accepts what ends in its count after a filler the scheme allows. -/
theorem unpadAcceptsExactlyValidPadding : Obligations.UnpadAcceptsExactlyValidPadding := by
  intro x hne hmod
  have hx : 8 ≤ x.length := by
    have := List.length_pos_of_ne_nil hne
    omega
  refine ⟨rfl, ?_, fun v => ?_, fun v => ?_, fun v => ?_, fun scheme k => unpad_eq_error⟩
  · obtain ⟨v, n, hv, hlast, hstrip⟩ := stripZeros_spec x
    exact ⟨v, n, hv, hlast, congrArg _ hstrip⟩
  · rw [unpad_eq_ok_iff (by decide) hx]
    constructor
    · rintro ⟨n, _, ⟨h1, h8, -, rfl⟩, rfl⟩
      exact ⟨n, h1, h8, by rw [rep_byteOf_eq h1, List.append_assoc]⟩
    · rintro ⟨n, h1, h8, rfl⟩
      exact ⟨n, _, ⟨h1, h8, rep_length .., by rw [rep_byteOf_eq h1, List.append_assoc]⟩, rfl⟩
  · rw [unpad_eq_ok_iff (by decide) hx]
    constructor
    · rintro ⟨n, _, ⟨h1, h8, -, rfl⟩, rfl⟩
      exact ⟨n, h1, h8, rfl⟩
    · rintro ⟨n, h1, h8, rfl⟩
      exact ⟨n, _, ⟨h1, h8, rep_length .., rfl⟩, rfl⟩
  · rw [unpad_eq_ok_iff (by decide) hx]
    constructor
    · rintro ⟨n, filler, ⟨h1, h8, hlen, rfl⟩, -⟩
      exact ⟨n, filler, h1, h8, hlen, rfl⟩
    · rintro ⟨n, filler, h1, h8, hlen, rfl⟩
      exact ⟨n, filler, ⟨h1, h8, hlen, rfl⟩, trivial⟩

/-! ### The round trip (rule R198) -/

/-- A self-describing scheme ends the plaintext in its count, after a filler that it allows. -/
theorem exists_paddedBy_pad {scheme : Padding} (hs : scheme.SelfDescribing) (draw : Nat → Byte) (p : Bytes) :
    ∃ filler, PaddedBy (pad scheme draw p) p (padCount p.length) filler ∧
      FillerOk scheme (padCount p.length) filler := by
  obtain ⟨h1, h8⟩ := padCount_range p.length
  rcases hs.cases with rfl | rfl | rfl
  · exact ⟨_, ⟨h1, h8, rep_length .., by rw [pad, rep_byteOf_eq h1, List.append_assoc]⟩, rfl⟩
  · exact ⟨_, ⟨h1, h8, rep_length .., rfl⟩, rfl⟩
  · exact ⟨_, ⟨h1, h8, by rw [List.length_map, List.length_range], rfl⟩, trivial⟩

theorem unpad_pad {scheme : Padding} (hs : scheme.SelfDescribing) (draw : Nat → Byte) (p : Bytes) :
    unpad scheme (pad scheme draw p) = .ok p := by
  obtain ⟨filler, hp, hfill⟩ := exists_paddedBy_pad hs draw p
  exact (hp.unpad_eq_ok hs).2 ⟨hfill, rfl⟩

/-- Under Zeros the fill is lost, and with it the zero bytes that end the plaintext. -/
theorem unpad_pad_zeros (draw : Nat → Byte) (p : Bytes) :
    unpad .zeros (pad .zeros draw p) = .ok (stripZeros p) :=
  congrArg Except.ok (stripZeros_append p _)

theorem stripZeros_of_last {p : Bytes} (h : p = [] ∨ p.getLast? ≠ some 0x00#8) : stripZeros p = p := by
  refine List.rdropWhile_eq_self_iff.2 fun hne hzero => ?_
  refine h.elim hne fun hlast => hlast ?_
  rw [List.getLast?_eq_getLast_of_ne_nil hne, eq_of_beq hzero]

/-- Settles O35, by `unpad_pad` and `unpad_pad_zeros`. -/
theorem unpadInvertsPad : Obligations.UnpadInvertsPad := by
  intro draw p
  refine ⟨fun _ => rfl, unpad_pad (by decide) draw p, unpad_pad (by decide) draw p, unpad_pad (by decide) draw p,
    fun hlast => ?_, ?_⟩
  · rw [unpad_pad_zeros, stripZeros_of_last hlast]
  · obtain ⟨v, n, hv, hlast, hstrip⟩ := stripZeros_spec p
    exact ⟨v, n, hv, hlast, by rw [unpad_pad_zeros, hstrip]⟩

/-! ### What depends on a draw (rule R196) -/

/-- `pad` reads no draw past those the rule counts. -/
theorem pad_congr {scheme : Padding} {draw draw' : Nat → Byte} {p : Bytes}
    (h : ∀ i < padDraws scheme p.length, draw i = draw' i) : pad scheme draw p = pad scheme draw' p := by
  cases scheme with
  | none | zeros | pkcs7 | ansix923 => rfl
  | iso10126 =>
    have hmap : (List.range (padCount p.length - 1)).map draw = (List.range (padCount p.length - 1)).map draw' :=
      List.map_congr_left fun i hi => h i (List.mem_range.1 hi)
    simp only [pad, hmap]

/-- One byte short of a block, the count byte alone completes it (rule R196). -/
theorem padDraws_one_short (scheme : Padding) {n : Nat} (h : n % 8 = 7) : padDraws scheme n = 0 := by
  cases scheme with
  | none | zeros | pkcs7 | ansix923 => rfl
  | iso10126 => rw [padDraws, padCount, h]

section
variable {mc pc : BitVec 3} {hash ksize text : Bool} {draw : Nat → Byte} {key iv din : Bytes}

/-- `ENC` fails in its validation phase only, before a byte is drawn (45_cipher_commands.md rule R245). -/
theorem encFunction_eq_error {k : ErrKind} : encFunction mc pc hash ksize text draw key iv din = .error k ↔
    encCheck mc pc hash key iv din = .error k := by
  simp [encFunction, Result.bind_eq_error]

theorem encFunction_congr {draw' : Nat → Byte} (h : ∀ c, encCheck mc pc hash key iv din = .ok c →
    ∀ i < padDraws c.2 din.length, draw i = draw' i) :
    encFunction mc pc hash ksize text draw key iv din = encFunction mc pc hash ksize text draw' key iv din := by
  unfold encFunction
  cases hc : encCheck mc pc hash key iv din with
  | error k => rfl
  | ok c => simp only [Result.ok_bind, encTransform, pad_congr (h c hc)]

end

/-- Settles O58: `ENC` alone is given draws; its errors are those of its checks, and its padding reads no draw when
the scheme is not ISO10126 or the last block lacks one byte only. -/
theorem onlyIsoResultsDependOnDraws : Obligations.OnlyIsoResultsDependOnDraws := by
  intro i draw draw' key iv din
  cases i with
  | clr | b64e | b64d | kdf | dec | pwenc | pwdec => exact ⟨fun _ h => h, fun _ => rfl⟩
  | enc mc pc hash ksize text =>
    refine ⟨fun k h => encFunction_eq_error.2 (encFunction_eq_error.1 h),
      fun hdraws => encFunction_congr fun c hc => ?_⟩
    have hnone : padDraws c.2 din.length = 0 := by
      rcases hdraws with hiso | hshort
      · by_contra hn
        obtain ⟨-, hp, -⟩ := encCheck_eq_ok.1 hc
        exact hiso mc hash ksize text (eq_four_of_padDraws_ne_zero hp hn ▸ rfl)
      · exact padDraws_one_short c.2 hshort
    intro j hj
    rw [hnone] at hj
    exact absurd hj (Nat.not_lt_zero j)

end Sys2Proof.Machine
end

-- The proofs of the family 44_modes.md.
section
/-! PROOFS. The IV rule, every mode block by block, ciphertext stealing, and decryption as the inverse of encryption
(44_modes.md rules R211 to R220). -/

namespace Sys2Proof.Machine

/-! ### The IV rule (rule R211) -/

theorem ivCheck_of_ne_ecb {m : Mode} (h : m ≠ .ecb) (iv : Bytes) :
    ivCheck m iv = if iv.length = 8 then .ok () else .error .invalidIvLength :=
  if_neg h

section
variable {mc pc : BitVec 3} {hash : Bool} {key iv : Bytes} {c : Mode × Padding} {e : ErrKind}

/-- The IV is checked after the configuration and the key (45_cipher_commands.md rule R240), so its error decides. -/
theorem encFunction_of_ivCheck_error (ksize text : Bool) (draw : Nat → Byte) (din : Bytes)
    (hcfg : cfgCheck mc pc = .ok c) (hkey : keyCheck hash key = .ok ()) (hiv : ivCheck c.1 iv = .error e) :
    encFunction mc pc hash ksize text draw key iv din = .error e := by
  simp only [encFunction, encCheck, hcfg, hkey, hiv, Result.ok_bind, Result.error_bind]

theorem decFunction_of_ivCheck_error (ksize text : Bool) (din : Bytes)
    (hcfg : cfgCheck mc pc = .ok c) (hkey : keyCheck hash key = .ok ()) (hiv : ivCheck c.1 iv = .error e) :
    decFunction mc pc hash ksize text key iv din = .error e := by
  simp only [decFunction, decCheck, hcfg, hkey, hiv, Result.ok_bind, Result.error_bind]

end

/-- Settles O36: the check is the rule, and it is the first of either command to fail. -/
theorem ivRule : Obligations.IvRule := by
  refine ⟨fun _ => rfl, fun m iv hm => ivCheck_of_ne_ecb hm iv,
    fun s mc pc m p hash ksize text ho hm hp hsup hkey hecb hlen => ?_⟩
  have hcfg : cfgCheck mc pc = .ok (m, p) := cfgCheck_eq_ok.2 ⟨hm, hp, hsup⟩
  have hkeyOk := keyCheck_eq_ok.2 hkey
  have hiv : ivCheck m s.iv = .error .invalidIvLength := (ivCheck_of_ne_ecb hecb s.iv).trans (if_neg hlen)
  exact ⟨exec_of_error ho (encFunction_of_ivCheck_error ksize text _ s.din hcfg hkeyOk hiv),
    exec_of_error ho (decFunction_of_ivCheck_error ksize text s.din hcfg hkeyOk hiv)⟩

/-! ### Modes as chains

Every mode but CTS handles one block after another and carries a value from each to the next. -/

/-- What a mode does to one block after the carried value: the output block, and the value it carries on. -/
structure BlockChain where
  out : Bytes → Bytes → Bytes
  next : Bytes → Bytes → Bytes

namespace BlockChain

/-- The output for a list of blocks after the carried value. -/
def run (c : BlockChain) : Bytes → List Bytes → Bytes
  | _, [] => []
  | v, b :: bs => c.out v b ++ c.run (c.next v b) bs

/-- The value carried into block `j` of `x`. -/
def value (c : BlockChain) (v x : Bytes) : Nat → Bytes
  | 0 => v
  | j + 1 => c.next (c.value v x j) (sub x (8 * j) 8)

/-- The chain turns blocks into blocks and carries good values on as good values. -/
structure Keeps (c : BlockChain) (good : Bytes → Prop) : Prop where
  out_length : ∀ v b, good v → b.length = 8 → (c.out v b).length = 8
  next_good : ∀ v b, good v → b.length = 8 → good (c.next v b)

/-- From good values, `d` gives back each block of `c` and carries the same values. -/
structure Inverts (d c : BlockChain) (good : Bytes → Prop) : Prop where
  out_out : ∀ v b, good v → b.length = 8 → d.out v (c.out v b) = b
  next_out : ∀ v b, good v → b.length = 8 → d.next v (c.out v b) = c.next v b

section
variable {c d : BlockChain} {good : Bytes → Prop}

/-- A function on lists of blocks with the chain's two equations is the chain's run. -/
theorem eq_run {f : Bytes → List Bytes → Bytes} (nil : ∀ v, f v [] = [])
    (cons : ∀ v b bs, f v (b :: bs) = c.out v b ++ f (c.next v b) bs) (v : Bytes) (bs : List Bytes) :
    f v bs = c.run v bs := by
  induction bs generalizing v with
  | nil => exact nil v
  | cons b bs ih => rw [cons, ih, run]

theorem run_append (c : BlockChain) (v r : Bytes) {b : Bytes} (hb : b.length = 8) :
    c.run v (blocks (b ++ r)) = c.out v b ++ c.run (c.next v b) (blocks r) := by
  rw [blocks_append b r hb, run]

theorem value_append (c : BlockChain) (v r : Bytes) {b : Bytes} (hb : b.length = 8) (j : Nat) :
    c.value v (b ++ r) (j + 1) = c.value (c.next v b) r j := by
  induction j with
  | zero => exact congrArg (c.next v) (sub_zero_append b r hb)
  | succ j ih => rw [value, ih, sub_succ_append b r j hb, value]

theorem Keeps.length_run (h : c.Keeps good) {x : Bytes} (hx : x.length % 8 = 0) :
    ∀ v, good v → (c.run v (blocks x)).length = x.length := by
  induction x, hx using blocks_induction with
  | nil => exact fun _ _ => rfl
  | block b r hb hr _ ih =>
    intro v hv
    rw [run_append c v r hb, List.length_append, List.length_append, h.out_length v b hv hb,
      ih _ (h.next_good v b hv hb), hb]

/-- Block `j` of the output comes from block `j` of the input and the value carried into it. -/
theorem Keeps.sub_run (h : c.Keeps good) {x : Bytes} (hx : x.length % 8 = 0) :
    ∀ (v : Bytes) (j : Nat), good v → j < x.length / 8 →
      sub (c.run v (blocks x)) (8 * j) 8 = c.out (c.value v x j) (sub x (8 * j) 8) := by
  induction x, hx using blocks_induction with
  | nil => exact fun _ j _ hj => absurd hj (Nat.not_lt_zero j)
  | block b r hb hr _ ih =>
    intro v j hv hj
    have hout := h.out_length v b hv hb
    rw [run_append c v r hb]
    cases j with
    | zero => rw [Nat.mul_zero, sub_zero_append _ _ hout, sub_zero_append b r hb, value]
    | succ j =>
      rw [List.length_append, hb] at hj
      rw [sub_succ_append _ _ j hout, sub_succ_append b r j hb, value_append c v r hb j]
      exact ih _ j (h.next_good v b hv hb) (by omega)

/-- A chain that carries each output block on. -/
theorem Keeps.sub_run_of_next_out (h : c.Keeps good) (hnext : c.next = c.out) {v x : Bytes} {j : Nat} (hv : good v)
    (hx : x.length % 8 = 0) (hj : j < x.length / 8) : sub (c.run v (blocks x)) (8 * j) 8 =
      c.out (if j = 0 then v else sub (c.run v (blocks x)) (8 * (j - 1)) 8) (sub x (8 * j) 8) := by
  rw [h.sub_run hx v j hv hj]
  cases j with
  | zero => rfl
  | succ j => rw [value, hnext, ← h.sub_run hx v j hv (by omega)]; rfl

/-- A chain that carries each input block on. -/
theorem Keeps.sub_run_of_next_in (h : c.Keeps good) (hnext : ∀ w b, c.next w b = b) {v x : Bytes} {j : Nat}
    (hv : good v) (hx : x.length % 8 = 0) (hj : j < x.length / 8) : sub (c.run v (blocks x)) (8 * j) 8 =
      c.out (if j = 0 then v else sub x (8 * (j - 1)) 8) (sub x (8 * j) 8) := by
  rw [h.sub_run hx v j hv hj]
  cases j with
  | zero => rfl
  | succ j => rw [value, hnext]; rfl

theorem Inverts.run_run (hinv : d.Inverts c good) (h : c.Keeps good) {x : Bytes} (hx : x.length % 8 = 0) :
    ∀ v, good v → d.run v (blocks (c.run v (blocks x))) = x := by
  induction x, hx using blocks_induction with
  | nil => exact fun v _ => by rw [blocks_nil, run, blocks_nil, run]
  | block b r hb hr _ ih =>
    intro v hv
    rw [run_append c v r hb, run_append d v _ (h.out_length v b hv hb), hinv.out_out v b hv hb,
      hinv.next_out v b hv hb, ih _ (h.next_good v b hv hb)]

end

end BlockChain

/-! ### The chains of the modes (rules R213 to R217) -/

/-- The equations of `ModeEnc`; for CTS those of CBC, on which it is built. -/
def encChain (k : Bytes) : Mode → BlockChain
  | .ecb => ⟨fun _ x => blockEnc k x, fun v _ => v⟩
  | .cbc | .cts => ⟨fun v x => blockEnc k (xorBytes x v), fun v x => blockEnc k (xorBytes x v)⟩
  | .cfb => ⟨fun v x => xorBytes x (blockEnc k v), fun v x => xorBytes x (blockEnc k v)⟩
  | .ofb => ⟨fun v x => xorBytes x (blockEnc k v), fun v _ => blockEnc k v⟩

/-- The equations of `ModeDec`, likewise. -/
def decChain (k : Bytes) : Mode → BlockChain
  | .ecb => ⟨fun _ y => blockDec k y, fun v _ => v⟩
  | .cbc | .cts => ⟨fun v y => xorBytes (blockDec k y) v, fun _ y => y⟩
  | .cfb => ⟨fun v y => xorBytes y (blockEnc k v), fun _ y => y⟩
  | .ofb => ⟨fun v y => xorBytes y (blockEnc k v), fun v _ => blockEnc k v⟩

theorem modeEnc_eq_run {m : Mode} (h : m ≠ .cts) (k iv x : Bytes) :
    modeEnc m k iv x = (encChain k m).run iv (blocks x) := by
  cases m with
  | ecb =>
    exact BlockChain.eq_run (f := fun _ bs => (bs.map (blockEnc k)).flatten) (fun _ => rfl) (fun _ _ _ => rfl) iv _
  | cbc => exact BlockChain.eq_run (f := cbcEncBlocks k) (fun _ => rfl) (fun _ _ _ => rfl) iv _
  | cfb => exact BlockChain.eq_run (f := cfbEncBlocks k) (fun _ => rfl) (fun _ _ _ => rfl) iv _
  | ofb => exact BlockChain.eq_run (f := ofbBlocks k) (fun _ => rfl) (fun _ _ _ => rfl) iv _
  | cts => exact absurd rfl h

theorem modeDec_eq_run {m : Mode} (h : m ≠ .cts) (k iv y : Bytes) :
    modeDec m k iv y = (decChain k m).run iv (blocks y) := by
  cases m with
  | ecb =>
    exact BlockChain.eq_run (f := fun _ bs => (bs.map (blockDec k)).flatten) (fun _ => rfl) (fun _ _ _ => rfl) iv _
  | cbc => exact BlockChain.eq_run (f := cbcDecBlocks k) (fun _ => rfl) (fun _ _ _ => rfl) iv _
  | cfb => exact BlockChain.eq_run (f := cfbDecBlocks k) (fun _ => rfl) (fun _ _ _ => rfl) iv _
  | ofb => exact BlockChain.eq_run (f := ofbBlocks k) (fun _ => rfl) (fun _ _ _ => rfl) iv _
  | cts => exact absurd rfl h

/-- An output block of encryption has eight bytes whatever is carried. -/
theorem encChain_out_length (k : Bytes) (m : Mode) (v : Bytes) {b : Bytes} (hb : b.length = 8) :
    ((encChain k m).out v b).length = 8 := by
  cases m <;> simp [encChain, hb]

theorem encChain_keeps (k : Bytes) (m : Mode) : (encChain k m).Keeps (IvOk m) where
  out_length v _ _ hb := encChain_out_length k m v hb
  next_good v _ _ hb hm := by
    cases m with
    | ecb => exact absurd rfl hm
    | cbc | cts | ofb => exact blockEnc_length ..
    | cfb => exact encChain_out_length k .cfb v hb

theorem decChain_keeps (k : Bytes) (m : Mode) : (decChain k m).Keeps (IvOk m) where
  out_length v _ hv hb := by
    cases m with
    | ecb => exact blockDec_length ..
    | cbc | cts => simp [decChain, hv (by decide)]
    | cfb | ofb => simp [decChain, hb]
  next_good _ _ _ hb hm := by
    cases m with
    | ecb => exact absurd rfl hm
    | cbc | cfb | cts => exact hb
    | ofb => exact blockEnc_length ..

/-- An IV of eight bytes suits every mode. -/
theorem ivOk_of_length {iv : Bytes} (h : iv.length = 8) (m : Mode) : IvOk m iv := fun _ => h

/-- Settles O37: the chain of ECB carries nothing that a block depends on. -/
theorem ecbBlocks : Obligations.EcbBlocks := by
  intro k iv x j hx hj
  have hiv : IvOk .ecb iv := fun h => absurd rfl h
  rw [modeEnc_eq_run (by decide), modeDec_eq_run (by decide)]
  exact ⟨(encChain_keeps k .ecb).sub_run hx iv j hiv hj, (decChain_keeps k .ecb).sub_run hx iv j hiv hj⟩

/-- Settles O38: both directions carry the ciphertext block on, which encryption puts out and decryption takes in. -/
theorem cbcBlocks : Obligations.CbcBlocks := by
  intro k iv x j hlen hx hj
  have hiv := ivOk_of_length hlen .cbc
  rw [modeEnc_eq_run (by decide), modeDec_eq_run (by decide)]
  exact ⟨(encChain_keeps k .cbc).sub_run_of_next_out rfl hiv hx hj,
    (decChain_keeps k .cbc).sub_run_of_next_in (fun _ _ => rfl) hiv hx hj⟩

/-- Settles O39, as for CBC. -/
theorem cfbBlocks : Obligations.CfbBlocks := by
  intro k iv x j hlen hx hj
  have hiv := ivOk_of_length hlen .cfb
  rw [modeEnc_eq_run (by decide), modeDec_eq_run (by decide)]
  exact ⟨(encChain_keeps k .cfb).sub_run_of_next_out rfl hiv hx hj,
    (decChain_keeps k .cfb).sub_run_of_next_in (fun _ _ => rfl) hiv hx hj⟩

/-- OFB carries the key stream on, whatever the data. -/
theorem encChain_ofb_value (k iv x : Bytes) (j : Nat) :
    (encChain k .ofb).value iv x j = (blockEnc k)^[j] iv := by
  induction j with
  | zero => rfl
  | succ j ih => rw [BlockChain.value, ih, Function.iterate_succ_apply']; rfl

/-- Settles O40: the key stream has whole blocks whatever the IV's length, and both directions are the model's function
`ofbBlocks` (hence another name here). -/
theorem ofbBlockByBlock : Obligations.OfbBlocks := by
  intro k iv x j hx hj
  have hkeeps : (encChain k .ofb).Keeps fun _ => True :=
    ⟨fun v _ _ hb => encChain_out_length k .ofb v hb, fun _ _ _ _ => trivial⟩
  refine ⟨?_, rfl⟩
  rw [modeEnc_eq_run (by decide), hkeeps.sub_run hx iv j trivial hj, encChain_ofb_value,
    Function.iterate_succ_apply']
  rfl

/-! ### Ciphertext stealing (rules R218, R219) -/

theorem cbcDec_length (k : Bytes) {iv y : Bytes} (hiv : iv.length = 8) (hy : y.length % 8 = 0) :
    (cbcDec k iv y).length = y.length :=
  (congrArg List.length (modeDec_eq_run (m := .cbc) (by decide) k iv y)).trans
    ((decChain_keeps k .cbc).length_run hy iv (ivOk_of_length hiv .cbc))

theorem ctsEnc_aligned (k iv : Bytes) {x : Bytes} (h : x.length % 8 = 0) : ctsEnc k iv x = cbcEnc k iv x := if_pos h

theorem ctsDec_aligned (k iv : Bytes) {y : Bytes} (h : y.length % 8 = 0) : ctsDec k iv y = cbcDec k iv y := if_pos h

theorem sub_length {s : Bytes} {i n : Nat} (h : i + n ≤ s.length) : (sub s i n).length = n := by
  rw [sub, List.length_take, List.length_drop]
  omega

/-- The last bytes of a sequence. -/
theorem sub_eq_drop {s : Bytes} {i n : Nat} (h : s.length ≤ i + n) : sub s i n = s.drop i :=
  List.take_of_length_le (by rw [List.length_drop]; omega)

/-- The last block of the first part of an append. -/
theorem sub_last_append {a : Bytes} (r : Bytes) (ha : 8 ≤ a.length) :
    sub (a ++ r) (a.length - 8) 8 = a.drop (a.length - 8) := by
  rw [sub, List.drop_append_of_le_length (Nat.sub_le ..), List.take_left' (by rw [List.length_drop]; omega)]

/-- The three parts of an append, taken by their lengths. -/
theorem parts_of_append_append {a b : Bytes} (r : Bytes) {i n : Nat} (ha : a.length = i) (hb : b.length = n) :
    (a ++ b ++ r).take i = a ∧ sub (a ++ b ++ r) i n = b ∧ (a ++ b ++ r).drop (i + n) = r := by
  subst ha hb
  refine ⟨?_, ?_, ?_⟩
  · rw [List.append_assoc, List.take_left]
  · rw [List.append_assoc, sub, List.drop_left, List.take_left]
  · rw [← List.length_append, List.drop_left]

section
variable (k : Bytes) {iv x y : Bytes} {d m : Nat}

/-- Ciphertext stealing on `m` blocks, the last of `d` bytes. -/
theorem ctsEnc_unaligned (hd : d = x.length % 8) (hd0 : d ≠ 0) (hm : m = (x.length + 7) / 8)
    (hy : y = cbcEnc k iv (x ++ rep 0x00#8 (8 - d))) : y.length = 8 * m ∧
      ctsEnc k iv x = y.take (8 * (m - 2)) ++ (sub y (8 * (m - 2)) 8).take d ++ sub y (8 * (m - 1)) 8 := by
  have hfilled : (x ++ rep 0x00#8 (8 - d)).length = 8 * m := by
    rw [List.length_append, rep_length]
    omega
  have hlen : y.length = 8 * m := by rw [hy, cbcEnc_length k _ (by omega), hfilled]
  have hblocks : y.length / 8 = m := by omega
  rw [sub_eq_drop (i := 8 * (m - 1)) (by omega)]
  subst hd
  refine ⟨hlen, ?_⟩
  simp only [ctsEnc, if_neg hd0, ← hy, hblocks]

theorem ctsEnc_length (hx : 8 ≤ x.length) : (ctsEnc k iv x).length = x.length := by
  by_cases hd0 : x.length % 8 = 0
  · rw [ctsEnc_aligned k iv hd0, cbcEnc_length k x hd0]
  · obtain ⟨hlen, hcts⟩ := ctsEnc_unaligned k (iv := iv) rfl hd0 rfl rfl
    rw [hcts, List.length_append, List.length_append, List.length_take, List.length_take,
      sub_length (by omega), sub_length (by omega), hlen]
    omega

end

/-- Settles O41, by `ctsEnc_unaligned` and `ctsEnc_length`. -/
theorem ctsEncryption : Obligations.CtsEncryption := by
  rintro k iv x d m - hx hd hm
  refine ⟨ctsEnc_length k hx, fun h0 => ctsEnc_aligned k iv (hd ▸ h0), fun h0 y hy => ?_, ?_⟩
  · exact ⟨by omega, ctsEnc_unaligned k hd h0 hm hy⟩
  · exact fun n hn => by rw [dataCheck, if_pos rfl, if_pos hn]

section
variable (k : Bytes) {iv y cpen z : Bytes} {d m : Nat}

/-- Ciphertext stealing undone on `m` blocks, the last but one of `d` bytes. -/
theorem ctsDec_unaligned (hd : d = y.length % 8) (hd0 : d ≠ 0) (hm : m = (y.length + 7) / 8)
    (hcpen : cpen = sub y (8 * (m - 2)) d) (hz : z = blockDec k (sub y (8 * (m - 2) + d) 8)) :
    ctsDec k iv y = cbcDec k iv (y.take (8 * (m - 2))) ++
      xorBytes (blockDec k (cpen ++ z.drop d)) (if 2 < m then sub y (8 * (m - 3)) 8 else iv) ++
      xorBytes (z.take d) cpen := by
  have hblocks : y.length / 8 + 1 = m := by omega
  subst hd
  simp only [ctsDec, if_neg hd0, hblocks, ← hcpen, ← hz]

/-- The lengths of the three parts of the plaintext. -/
theorem ctsDec_unaligned_lengths (hiv : iv.length = 8) (hy : 8 ≤ y.length) (hd : d = y.length % 8)
    (hm : m = (y.length + 7) / 8) (hcpen : cpen = sub y (8 * (m - 2)) d) (hz : z.length = 8) (c : Bytes) :
    (cbcDec k iv (y.take (8 * (m - 2)))).length = 8 * (m - 2) ∧
    (xorBytes (blockDec k c) (if 2 < m then sub y (8 * (m - 3)) 8 else iv)).length = 8 ∧
    (xorBytes (z.take d) cpen).length = d := by
  have hhead : (y.take (8 * (m - 2))).length = 8 * (m - 2) := by
    rw [List.length_take]
    omega
  have hprev : (if 2 < m then sub y (8 * (m - 3)) 8 else iv).length = 8 := by
    split
    · exact sub_length (by omega)
    · exact hiv
  have hshort : cpen.length = d := hcpen ▸ sub_length (by omega)
  refine ⟨?_, ?_, ?_⟩
  · rw [cbcDec_length k hiv (by omega), hhead]
  · rw [xorBytes_length, blockDec_length, hprev, min_self]
  · rw [xorBytes_length, List.length_take, hshort, hz]
    omega

theorem ctsDec_length (hiv : iv.length = 8) (hy : 8 ≤ y.length) : (ctsDec k iv y).length = y.length := by
  by_cases hd0 : y.length % 8 = 0
  · rw [ctsDec_aligned k iv hd0, cbcDec_length k hiv hd0]
  · obtain ⟨hhead, hpen, hlast⟩ := ctsDec_unaligned_lengths k hiv hy rfl rfl rfl (blockDec_length ..) _
    rw [ctsDec_unaligned k rfl hd0 rfl rfl rfl, List.length_append, List.length_append, hhead, hpen, hlast]
    omega

end

/-- Settles O42: the rule's three parts have the lengths by which the statement takes them. -/
theorem ctsDecryption : Obligations.CtsDecryption := by
  intro k iv y d m hiv hy hd hm
  refine ⟨ctsDec_length k hiv hy, fun h0 => ctsDec_aligned k iv (hd ▸ h0), fun h0 cpen z hcpen hz => ?_⟩
  obtain ⟨hhead, hpen, -⟩ := ctsDec_unaligned_lengths k hiv hy hd hm hcpen (hz ▸ blockDec_length ..) _
  obtain ⟨htake, hsub, hdrop⟩ := parts_of_append_append (xorBytes (z.take d) cpen) hhead hpen
  rw [← ctsDec_unaligned k hd h0 hm hcpen hz] at htake hsub hdrop
  have hm2 : 2 ≤ m := by omega
  have hend : 8 * (m - 1) = 8 * (m - 2) + 8 := by omega
  exact ⟨hm2, htake, hsub, hend ▸ hdrop⟩

/-! ### Decryption inverts encryption (rule R220) -/

theorem decChain_inverts (k : Bytes) (m : Mode) : (decChain k m).Inverts (encChain k m) (IvOk m) where
  out_out v b hv hb := by
    cases m with
    | ecb => exact blockDec_blockEnc k b hb
    | cbc | cts =>
      have hlen : v.length = 8 := hv (by decide)
      simp only [decChain, encChain]
      rw [blockDec_blockEnc k _ (by simp [hb, hlen]), xorBytes_cancel b v (by omega)]
    | cfb | ofb => exact xorBytes_cancel b _ (by simp [hb])
  next_out v b _ _ := by cases m <;> rfl

section
variable (k : Bytes) {iv : Bytes}

/-- The block before the stolen one, in the ciphertext as in the chain. -/
theorem chainEnd_eq {h : Bytes} (hh : h.length % 8 = 0) : chainEnd k iv h =
    if cbcEnc k iv h = [] then iv else (cbcEnc k iv h).drop ((cbcEnc k iv h).length - 8) := by
  have hlen := cbcEnc_length k h hh iv
  have hnil : cbcEnc k iv h = [] ↔ h = [] := by
    rw [← List.length_eq_zero_iff, hlen, List.length_eq_zero_iff]
  simp only [chainEnd, hnil, hlen]

/-- CTS decryption of whole blocks `head`, a short block and a last block (rule R219). -/
theorem ctsDec_parts {head cpen clast z : Bytes} (hhead : head.length % 8 = 0) (hcpen : cpen.length < 8)
    (hpos : cpen.length ≠ 0) (hlast : clast.length = 8) (hz : z = blockDec k clast) :
    ctsDec k iv (head ++ cpen ++ clast) = cbcDec k iv head ++
      xorBytes (blockDec k (cpen ++ z.drop cpen.length)) (if head = [] then iv else head.drop (head.length - 8)) ++
      xorBytes (z.take cpen.length) cpen := by
  have hlen : (head ++ cpen ++ clast).length = head.length + cpen.length + 8 := by
    rw [List.length_append, List.length_append, hlast]
  generalize hm : head.length / 8 + 2 = m
  obtain ⟨htake, hsub, hdrop⟩ := parts_of_append_append clast (show head.length = 8 * (m - 2) by omega) rfl
  have hclast : sub (head ++ cpen ++ clast) (8 * (m - 2) + cpen.length) 8 = clast := by
    rw [sub_eq_drop (by omega), hdrop]
  have hprev : (if 2 < m then sub (head ++ cpen ++ clast) (8 * (m - 3)) 8 else iv) =
      if head = [] then iv else head.drop (head.length - 8) := by
    by_cases h0 : head = []
    · subst h0
      rw [if_neg (by simp at hm; omega), if_pos rfl]
    · have : head.length ≠ 0 := by simpa using h0
      rw [if_pos (by omega), if_neg h0, List.append_assoc, show 8 * (m - 3) = head.length - 8 by omega,
        sub_last_append _ (by omega)]
  rw [ctsDec_unaligned k (by omega) hpos (by omega) hsub.symm (by rw [hclast, ← hz]), htake, hprev]

/-- An input of CTS that is not whole blocks: whole blocks, a block, and the last bytes (rule R218). -/
theorem exists_ctsParts {x : Bytes} (hx : 8 ≤ x.length) (h : x.length % 8 ≠ 0) :
    ∃ head a b, x = head ++ a ++ b ∧ head.length % 8 = 0 ∧ a.length = 8 ∧ b.length < 8 ∧ b ≠ [] := by
  generalize hn : 8 * (x.length / 8 - 1) = n
  refine ⟨x.take n, sub x n 8, x.drop (n + 8), ?_, ?_, sub_length (by omega), ?_, ?_⟩
  · rw [sub, ← List.drop_drop, List.append_assoc, List.take_append_drop, List.take_append_drop]
  · rw [List.length_take]
    omega
  · rw [List.length_drop]
    omega
  · rw [← List.length_pos_iff, List.length_drop]
    omega

/-- The last block of a stolen ciphertext, decrypted: the last bytes and the tail cut from the block `y` before it, both
under `y` (rule R219). -/
theorem blockDec_stolen {b y : Bytes} (hb : b.length < 8) (hy : y.length = 8) :
    blockDec k (blockEnc k (xorBytes (b ++ rep 0#8 (8 - b.length)) y)) =
      xorBytes b (y.take b.length) ++ y.drop b.length := by
  have hfill := xorBytes_filled b y (by omega)
  rw [hy] at hfill
  rw [blockDec_blockEnc k _ (by simp [hy]; omega), hfill]

theorem ctsDec_ctsEnc_unaligned {head a b : Bytes} (hiv : iv.length = 8) (hhead : head.length % 8 = 0)
    (ha : a.length = 8) (hb : b.length < 8) (hne : b ≠ []) :
    ctsDec k iv (ctsEnc k iv (head ++ a ++ b)) = head ++ a ++ b := by
  rw [ctsEnc_filled k iv head a b hhead ha hb hne]
  generalize hy : blockEnc k (xorBytes a (chainEnd k iv head)) = y
  have hylen : y.length = 8 := hy ▸ blockEnc_length ..
  have hchain := chainEnd_length k iv head hhead hiv
  have hcut : (y.take b.length).length = b.length := by
    rw [List.length_take]
    omega
  have hlow : (xorBytes b (y.take b.length)).length = b.length := by rw [xorBytes_length, hcut, min_self]
  have hpen : xorBytes (blockDec k y) (chainEnd k iv head) = a := by
    rw [← hy, blockDec_blockEnc k _ (by rw [xorBytes_length, ha, hchain, min_self]), xorBytes_cancel a _ (by omega)]
  rw [ctsDec_parts k (by rw [cbcEnc_length k head hhead, hhead]) (by omega) (by rw [hcut]; simpa using hne)
      (blockEnc_length ..) (blockDec_stolen k hb hylen).symm,
    hcut, List.drop_left' hlow, List.take_left' hlow, List.take_append_drop, ← chainEnd_eq k hhead, hpen,
    cbcDec_cbcEnc k head hhead iv hiv, xorBytes_cancel b _ hcut.ge]

theorem ctsDec_ctsEnc {x : Bytes} (hiv : iv.length = 8) (hx : 8 ≤ x.length) : ctsDec k iv (ctsEnc k iv x) = x := by
  by_cases h0 : x.length % 8 = 0
  · rw [ctsEnc_aligned k iv h0, ctsDec_aligned k iv (by rw [cbcEnc_length k x h0, h0]), cbcDec_cbcEnc k x h0 iv hiv]
  · obtain ⟨head, a, b, rfl, hhead, ha, hb, hne⟩ := exists_ctsParts hx h0
    exact ctsDec_ctsEnc_unaligned k hiv hhead ha hb hne

end

/-- Settles O43: every chain is undone by its own, and CTS by `ctsDec_ctsEnc`. -/
theorem modeRoundTrip : Obligations.ModeRoundTrip := by
  rintro m k iv x - hiv hx hcts
  by_cases hm : m = .cts
  · subst hm
    exact ⟨ctsDec_ctsEnc k (hiv (by decide)) (hcts rfl), ctsEnc_length k (hcts rfl)⟩
  · have hkeeps := encChain_keeps k m
    rw [modeDec_eq_run hm, modeEnc_eq_run hm]
    exact ⟨(decChain_inverts k m).run_run hkeeps (hx hm) iv hiv, hkeeps.length_run (hx hm) iv hiv⟩

end Sys2Proof.Machine
end

-- The proofs of the family 45_cipher_commands.md.
section
/-! PROOFS. The commands `ENC` and `DEC`: when they complete and with what, their errors in order, the round trip and
the derived key (45_cipher_commands.md rules R240 to R248). -/

namespace Sys2Proof.Machine

/-! ### A command that completes (rule R90) -/

section
variable {i : Instr} {s t : State} {v : Bytes}

theorem exec_of_fits (hi : i ≠ .clr) (ho : s.ovf = false)
    (h : commandFunction i s.nextDraw s.key s.iv s.din = .ok v) (hfits : v.length ≤ s.cfg.outMax) :
    exec i s = .next ((s.advanceDraws (commandDraws i s)).settle .done none v) := by
  rw [exec_eq_frame i s hi, h]
  exact congrArg _ (State.frame_fits _ v ho hfits)

/-- A command that ended `DONE` left its function's result in `DOUT`. -/
theorem commandFunction_of_done (hi : i ≠ .clr) (h : exec i s = .next t) (hdone : t.phase = .done) :
    commandFunction i s.nextDraw s.key s.iv s.din = .ok t.dout := by
  rw [exec_eq_frame i s hi] at h
  cases h
  rcases State.frame_cases (s.advanceDraws (commandDraws i s)) (commandFunction i s.nextDraw s.key s.iv s.din) with
    ⟨-, h⟩ | ⟨-, k, -, h⟩ | ⟨-, v, -, -, h⟩ | ⟨-, v, hres, -, h⟩ <;> rw [h] at hdone
  · cases hdone
  · cases hdone
  · cases hdone
  · rw [h, hres, State.succeed_eq_settle, State.settle_dout]

end

/-! ### The configuration of a command (rules R82, R244) -/

theorem modeOf_eq_ecb_iff : ∀ mc : BitVec 3, modeOf mc = some .ecb ↔ mc = 0#3 := by decide

theorem modeOf_eq_cts_iff : ∀ mc : BitVec 3, modeOf mc = some .cts ↔ mc = 4#3 := by decide

theorem paddingOf_eq_none_iff : ∀ pc : BitVec 3, paddingOf pc = some .none ↔ pc = 0#3 := by decide

theorem paddingOf_eq_zeros_iff : ∀ pc : BitVec 3, paddingOf pc = some .zeros ↔ pc = 1#3 := by decide

/-- Every configuration that rule R244 does not refuse passes. -/
theorem cfgCheck_supported {mc pc : BitVec 3} (h : ¬ (5 ≤ mc.toNat ∨ 5 ≤ pc.toNat ∨ (mc = 4#3 ∧ pc ≠ 0#3))) :
    ∃ m p, cfgCheck mc pc = .ok (m, p) := by
  have hpass : (cfgCheck mc pc).isOk := by
    revert mc pc
    decide
  cases hc : cfgCheck mc pc with
  | error k => rw [hc] at hpass; cases hpass
  | ok c => exact ⟨c.1, c.2, rfl⟩

/-- What a pair of unreserved codes stands for passes unless it is CTS with a padding. -/
theorem cfgCheck_of_some {mc pc : BitVec 3} {m : Mode} {p : Padding} (hm : modeOf mc = some m)
    (hp : paddingOf pc = some p) : cfgCheck mc pc =
      if m = .cts ∧ p ≠ .none then .error .unsupportedConfiguration else .ok (m, p) := by
  rw [cfgCheck, hm, hp]

theorem cfgCheck_of_none {mc pc : BitVec 3} (h : modeOf mc = none ∨ paddingOf pc = none) :
    cfgCheck mc pc = .error .unsupportedConfiguration := by
  unfold cfgCheck
  split
  · rename_i hm hp
    rw [hm, hp] at h
    rcases h with h | h <;> cases h
  · rfl

/-! ### The functions of `ENC` and `DEC` as sequences of checks (rules R240, R245, R246) -/

section
variable (mc pc : BitVec 3) (hash ksize text : Bool) (key iv din : Bytes) (draw : Nat → Byte)

theorem encFunction_eq : encFunction mc pc hash ksize text draw key iv din =
    (cfgCheck mc pc >>= fun c => keyCheck hash key >>= fun _ => ivCheck c.1 iv >>= fun _ => dinCheck din >>= fun _ =>
      dataCheck .enc c.1 c.2 din.length >>= fun _ => .ok (encTransform c.1 c.2 hash ksize text draw key iv din)) := by
  simp [encFunction, encCheck, Result.ok_bind]

theorem decFunction_eq : decFunction mc pc hash ksize text key iv din =
    (cfgCheck mc pc >>= fun c => keyCheck hash key >>= fun _ => ivCheck c.1 iv >>= fun _ => dinCheck din >>= fun _ =>
      ciphertext text din >>= fun y => dataCheck .dec c.1 c.2 y.length >>= fun _ =>
        unpad c.2 (modeDec c.1 (effKey hash ksize key) iv y)) := by
  simp [decFunction, decCheck, Result.ok_bind]

/-- The transformation phase of `ENC` cannot fail (rule R245). -/
theorem encFunction_of_encCheck {m : Mode} {p : Padding} (h : encCheck mc pc hash key iv din = .ok (m, p)) :
    encFunction mc pc hash ksize text draw key iv din = .ok (encTransform m p hash ksize text draw key iv din) := by
  rw [encFunction, h, Result.ok_bind]

end

/-! ### The effective key and the ciphertext (rules R241, R245) -/

section
variable {m : Mode} {p : Padding} {hash : Bool} {key iv din : Bytes}

theorem effKey_length (ksize : Bool) (h : KeyOk hash key) :
    (effKey hash ksize key).length = 8 ∨ (effKey hash ksize key).length = 24 := by
  cases hash with
  | false => exact h
  | true =>
    rw [show effKey true ksize key = fit (h128 key) ksize from rfl, fit_length (h128_length key)]
    cases ksize with
    | false => exact .inl rfl
    | true => exact .inr rfl

theorem le_paddedLength (p : Padding) (n : Nat) : n ≤ paddedLength p n := by
  cases p <;> simp only [paddedLength] <;> omega

/-- Padding makes a length that `ENC` can process one that `DEC` can. -/
theorem decLengthOk_paddedLength {n : Nat} (h : EncLengthOk m p n) : DecLengthOk m (paddedLength p n) := by
  obtain ⟨hpos, hcts, hwhole⟩ := h
  have hle := le_paddedLength p n
  exact ⟨hpos.trans hle, fun hm => (hcts hm).trans hle, fun hm => paddedLength_mod (hwhole hm)⟩

/-- On what the checks of `ENC` accept, the mode is undone and keeps the length of the padded plaintext. -/
theorem modeDec_modeEnc_pad (ksize : Bool) (draw : Nat → Byte) (hkey : KeyOk hash key) (hiv : IvOk m iv)
    (hlen : EncLengthOk m p din.length) :
    modeDec m (effKey hash ksize key) iv (modeEnc m (effKey hash ksize key) iv (pad p draw din)) = pad p draw din ∧
      (modeEnc m (effKey hash ksize key) iv (pad p draw din)).length = paddedLength p din.length := by
  obtain ⟨-, hcts, hwhole⟩ := decLengthOk_paddedLength hlen
  rw [← pad_length p draw] at hcts hwhole ⊢
  exact modeRoundTrip m _ iv _ (effKey_length ksize hkey) hiv hwhole hcts

theorem encTransform_length (ksize text : Bool) (draw : Nat → Byte) (hkey : KeyOk hash key) (hiv : IvOk m iv)
    (hlen : EncLengthOk m p din.length) :
    (encTransform m p hash ksize text draw key iv din).length = encLength p text din.length := by
  obtain ⟨-, hy⟩ := modeDec_modeEnc_pad ksize draw hkey hiv hlen
  cases text with
  | false => exact hy
  | true => exact (b64enc_length _).trans (congrArg textLength hy)

/-- `DEC` takes its ciphertext back from what `ENC` made of it. -/
theorem ciphertext_of_text (text : Bool) (y : Bytes) : ciphertext text (if text then b64enc y else y) = .ok y := by
  cases text with
  | false => rfl
  | true => exact b64dec_b64enc y

theorem le_length_text (text : Bool) (y : Bytes) : y.length ≤ (if text then b64enc y else y).length := by
  cases text with
  | false => exact Nat.le_refl _
  | true =>
    rw [if_pos rfl, b64enc_length]
    omega

end

/-! ### `ENC` and `DEC` complete (rules R245, R246) -/

/-- Settles O44: what the checks accept is transformed, and its length decides that it fits. -/
theorem encCompletes : Obligations.EncCompletes := by
  rintro s mc pc m p hash ksize text ho hm hp hsup hkey hiv hlen hfits y rfl
  have hcheck : encCheck mc pc hash s.key s.iv s.din = .ok (m, p) := encCheck_eq_ok.2 ⟨hm, hp, hsup, hkey, hiv, hlen⟩
  have hdraws : encDraws mc pc hash s = padDraws p s.din.length := by simp [encDraws, ho, hcheck]
  have hres : encFunction mc pc hash ksize text s.nextDraw s.key s.iv s.din =
      .ok (encTransform m p hash ksize text s.nextDraw s.key s.iv s.din) := encFunction_of_encCheck (h := hcheck) ..
  have hlength := encTransform_length ksize text s.nextDraw hkey hiv hlen
  refine ⟨?_, hlength⟩
  rw [← hdraws]
  exact exec_of_fits (by simp) ho hres (hlength.trans_le hfits)

/-- Settles O46: what the checks accept is decrypted, and no byte is drawn. -/
theorem decCompletes : Obligations.DecCompletes := by
  intro s mc pc m p hash ksize text y v ho hm hp hsup hkey hiv hdin hlen hunpad hfits
  obtain ⟨hpos, hcts, hwhole⟩ := hlen
  have hcheck : decCheck mc pc hash text s.key s.iv s.din = .ok (m, p, y) := by
    rw [hdin]
    exact decCheck_eq_ok.2 ⟨hm, hp, hsup, hkey, hiv, hpos.trans (le_length_text text y), ciphertext_of_text text y,
      hcts, hwhole⟩
  have hres : decFunction mc pc hash ksize text s.key s.iv s.din = .ok v := by
    rw [decFunction, hcheck, Result.ok_bind]
    exact hunpad
  exact exec_of_fits (i := .dec mc pc hash ksize text) (by simp) ho hres hfits

/-! ### The round trip (rule R248) -/

/-- Removing the padding leaves the plaintext, under Zeros less its trailing zero bytes (rule R198). -/
theorem exists_unpad_pad (p : Padding) (draw : Nat → Byte) (din : Bytes) :
    ∃ v n, unpad p (pad p draw din) = .ok v ∧ din = v ++ rep 0x00#8 n ∧ (p ≠ .zeros → n = 0) ∧
      (p = .zeros → v.getLast? ≠ some 0x00#8) := by
  by_cases hz : p = .zeros
  · subst hz
    obtain ⟨v, n, hv, hlast, hstrip⟩ := stripZeros_spec din
    exact ⟨v, n, by rw [unpad_pad_zeros, hstrip], hv, fun h => absurd rfl h, fun _ => hlast⟩
  · refine ⟨din, 0, ?_, (List.append_nil din).symm, fun _ => rfl, fun h => absurd h hz⟩
    cases p with
    | none => rfl
    | zeros => exact absurd rfl hz
    | pkcs7 | ansix923 | iso10126 => exact unpad_pad (by decide) draw din

/-- Settles O48: the result of `ENC` meets what `decCompletes` asks, and its decryption is the padded plaintext. -/
theorem decOfEncIsThePlaintext : Obligations.DecOfEncIsThePlaintext := by
  intro s t u mc pc hash ksize text hexec hdone hkey hiv hdin ho
  have hres : encFunction mc pc hash ksize text s.nextDraw s.key s.iv s.din = .ok t.dout :=
    commandFunction_of_done (by simp) hexec hdone
  obtain ⟨⟨m, p⟩, hcheck, -⟩ := Result.bind_eq_ok.1 hres
  rw [encFunction_of_encCheck (h := hcheck) ..] at hres
  obtain ⟨hm, hp, hsup, hkeyOk, hivOk, hlen⟩ := encCheck_eq_ok.1 hcheck
  obtain ⟨hinv, hylen⟩ := modeDec_modeEnc_pad ksize s.nextDraw hkeyOk hivOk hlen
  obtain ⟨v, n, hunpad, hv, hexact, hlast⟩ := exists_unpad_pad p s.nextDraw s.din
  have hzeros : p = .zeros ↔ pc = 1#3 := by rw [← paddingOf_eq_zeros_iff, hp, Option.some.injEq]
  refine ⟨v, n, hv, fun h => hexact (mt hzeros.1 h), fun h => hlast (hzeros.2 h), fun hfits => ?_⟩
  refine decCompletes u mc pc m p hash ksize text
    (modeEnc m (effKey hash ksize s.key) s.iv (pad p s.nextDraw s.din)) v ho hm hp hsup
    (hkey ▸ hkeyOk) (hiv ▸ hivOk) (hdin.trans (Except.ok.inj hres).symm) ?_ ?_ hfits
  · rw [hylen]
    exact decLengthOk_paddedLength hlen
  · rw [hkey, hiv, hinv]
    exact hunpad

/-! ### The derived key (rules R146, R241) -/

/-- Settles O49: a derived key passes the check of a raw key, is its own effective key, and no draw reads it. -/
theorem hashedKeyIsTheDerivedKey : Obligations.HashedKeyIsTheDerivedKey := by
  intro s mc pc ksize text dk hdk
  have hne : s.key ≠ [] := by
    intro h
    rw [h, deriveKey_hashed_empty] at hdk
    cases hdk
  have heff : effKey true ksize s.key = dk := Except.ok.inj ((deriveKey_hashed hne ksize).symm.trans hdk)
  have hok : KeyOk true s.key := hne
  have hraw : KeyOk false dk := heff ▸ effKey_length ksize hok
  have hcheck : keyCheck true s.key = keyCheck false dk :=
    (keyCheck_eq_ok.2 hok).trans (keyCheck_eq_ok.2 hraw).symm
  have hself : effKey false ksize dk = dk := rfl
  have hdraws : encDraws mc pc true s = encDraws mc pc false { s with key := dk } := by
    simp only [encDraws, encCheck, hcheck]
  constructor
  · simp only [exec, execEnc, encFunction, encCheck, encTransform, hcheck, heff, hself, hdraws]
    exact congrArg _ (State.frame_operands _ dk s.iv s.din _).symm
  · simp only [exec, execDec, decFunction, decCheck, hcheck, heff, hself]
    exact congrArg _ (State.frame_operands s dk s.iv s.din _).symm

/-! ### The errors of `ENC` and `DEC` in their order (rule R305) -/

section
variable {s : State} {c : Prop} [Decidable c] {k : ErrKind}

theorem State.frame_err_error (ho : s.ovf = false) : (s.frame (.error k)).err = some k := by
  rw [s.frame_error k ho, State.takeError_eq_settle, State.settle_err]

theorem State.frame_err_ok (ho : s.ovf = false) (v : Bytes) :
    (s.frame (.ok v)).err = if s.cfg.outMax < v.length then some .bufferOverflow else none := by
  split
  · rw [s.frame_too_long v ho ‹_›, State.takeError_eq_settle, State.settle_err]
  · rw [s.frame_fits v ho (Nat.le_of_not_lt ‹_›), State.succeed_eq_settle, State.settle_err]

/-- A check that comes first decides `ERR` when it fails, and leaves it to the rest when it passes. -/
theorem State.frame_err_check {α : Type} (ho : s.ovf = false) (x : Result α) (f : α → Result Bytes) :
    (s.frame ((if c then .error k else x) >>= f)).err = if c then some k else (s.frame (x >>= f)).err := by
  split
  · exact State.frame_err_error ho
  · rfl

/-- Two chains that test the same condition and answer the same are compared in what follows. -/
theorem else_congr {α : Type} {a x y : α} (h : ¬ c → x = y) : (if c then a else x) = if c then a else y :=
  ite_congr rfl (fun _ => rfl) h

end

/-! Each check with one condition for its refusal, as rules R245 and R246 list them. -/

theorem ivCheck_eq_ite (m : Mode) (iv : Bytes) :
    ivCheck m iv = if m ≠ .ecb ∧ iv.length ≠ 8 then .error .invalidIvLength else .ok () := by
  by_cases hm : m = .ecb
  · simp [ivCheck, hm]
  · by_cases hlen : iv.length = 8 <;> simp [ivCheck_of_ne_ecb hm, hm, hlen]

theorem dataCheck_enc_eq_ite (m : Mode) (p : Padding) (n : Nat) : dataCheck .enc m p n =
    if (p = .none ∧ m ≠ .cts ∧ n % 8 ≠ 0) ∨ (m = .cts ∧ n < 8) then .error .unsupportedConfiguration else .ok () := by
  by_cases hm : m = .cts <;> simp [dataCheck, hm]

theorem dataCheck_dec_eq_ite (m : Mode) (p : Padding) (n : Nat) : dataCheck .dec m p n =
    if (m ≠ .cts ∧ n % 8 ≠ 0) ∨ (m = .cts ∧ n < 8) then .error .unsupportedConfiguration else .ok () := by
  by_cases hm : m = .cts <;> simp [dataCheck, hm]

theorem ciphertext_eq_error {text : Bool} {din : Bytes} {k : ErrKind} (h : ciphertext text din = .error k) :
    k = .malformedEncoding := by
  cases text with
  | false => cases h
  | true => exact b64dec_eq_error h

/-- Settles O45: the checks in the order the function makes them, then the length of the result. -/
theorem encErrorsInOrder : Obligations.EncErrorsInOrder := by
  intro s mc pc hash ksize text
  cases ho : s.ovf with
  | true => exact ⟨_, exec_of_ovf ho (by simp), rfl⟩
  | false =>
    refine ⟨_, rfl, ?_⟩
    have ho' : (s.advanceDraws (encDraws mc pc hash s)).ovf = false := ho
    rw [if_neg (by simp), encFunction_eq]
    by_cases hcfg : 5 ≤ mc.toNat ∨ 5 ≤ pc.toNat ∨ (mc = 4#3 ∧ pc ≠ 0#3)
    · rw [if_pos hcfg, cfgCheck_unsupported hcfg]
      exact State.frame_err_error ho'
    obtain ⟨m, p, hc⟩ := cfgCheck_supported hcfg
    obtain ⟨hm, hp, -⟩ := cfgCheck_eq_ok.1 hc
    have hecb : m = .ecb ↔ mc = 0#3 := by rw [← modeOf_eq_ecb_iff, hm, Option.some.injEq]
    have hcts : m = .cts ↔ mc = 4#3 := by rw [← modeOf_eq_cts_iff, hm, Option.some.injEq]
    have hnone : p = .none ↔ pc = 0#3 := by rw [← paddingOf_eq_none_iff, hp, Option.some.injEq]
    rw [if_neg hcfg]
    simp only [hc, keyCheck, ivCheck_eq_ite, dinCheck, dataCheck_enc_eq_ite, State.frame_err_check ho',
      Result.ok_bind, State.frame_err_ok ho', hp, ne_eq, ← hecb, ← hcts, ← hnone]
    refine else_congr fun hraw => else_congr fun hpass => else_congr fun hiv => else_congr fun hdin =>
      else_congr fun hdata => ?_
    have hkeyOk : KeyOk hash s.key := keyCheck_eq_ok.1 (by rw [keyCheck, if_neg hraw, if_neg hpass])
    have hivOk : IvOk m s.iv := ivCheck_eq_ok.1 (by rw [ivCheck_eq_ite, if_neg hiv])
    have hlen : EncLengthOk m p s.din.length := ⟨dinCheck_eq_ok.1 (by rw [dinCheck, if_neg hdin]),
      dataCheck_enc_eq_ok.1 (by rw [dataCheck_enc_eq_ite, if_neg hdata])⟩
    rw [encTransform_length ksize text s.nextDraw hkeyOk hivOk hlen, State.advanceDraws_cfg]

/-- Settles O47: the checks in the order the function makes them, then the padding, then the length of the result. -/
theorem decErrorsInOrder : Obligations.DecErrorsInOrder := by
  intro s mc pc hash ksize text
  cases ho : s.ovf with
  | true => exact ⟨_, exec_of_ovf ho (by simp), rfl⟩
  | false =>
    refine ⟨_, rfl, ?_⟩
    rw [if_neg (by simp), decFunction_eq]
    cases hm : modeOf mc with
    | none =>
      rw [cfgCheck_of_none (.inl hm)]
      exact State.frame_err_error ho
    | some m =>
      cases hp : paddingOf pc with
      | none =>
        rw [cfgCheck_of_none (.inr hp)]
        exact State.frame_err_error ho
      | some p =>
        simp only [cfgCheck_of_some hm hp, keyCheck, ivCheck_eq_ite, dinCheck, dataCheck_dec_eq_ite,
          State.frame_err_check ho, Result.ok_bind]
        refine else_congr fun _ => else_congr fun _ => else_congr fun _ => else_congr fun _ => else_congr fun _ => ?_
        rw [← ciphertext]
        cases hy : ciphertext text s.din with
        | error k =>
          rw [ciphertext_eq_error hy]
          exact State.frame_err_error ho
        | ok y =>
          simp only [Result.ok_bind, State.frame_err_check ho]
          refine else_congr fun _ => ?_
          cases hx : unpad p (modeDec m (effKey hash ksize s.key) s.iv y) with
          | error k =>
            rw [unpad_eq_error hx]
            exact State.frame_err_error ho
          | ok v => exact State.frame_err_ok ho v

end Sys2Proof.Machine
end

-- The proofs of the family 46_password.md.
section
/-! PROOFS. The commands `PWENC` and `PWDEC`: pass-through, what they complete with, their errors in order, `PWENC`
as an `ENC`, and the round trip (46_password.md rules R260 to R262). -/

namespace Sys2Proof

theorem eq_pwenc_of_opcode (j : Instr) (h : j.opcode = Instr.pwenc.opcode) : j = .pwenc := by
  cases j with
  | pwenc => rfl
  | clr | b64e | b64d | kdf | enc | dec | pwdec => cases h

end Sys2Proof

namespace Sys2Proof.Machine

/-! ### A result too long for `DOUT` (rule R90) -/

theorem exec_of_too_long {i : Instr} {s : State} {v : Bytes} (hi : i ≠ .clr) (ho : s.ovf = false)
    (h : commandFunction i s.nextDraw s.key s.iv s.din = .ok v) (hlong : s.cfg.outMax < v.length) :
    exec i s = .next ((s.advanceDraws (commandDraws i s)).settle .error (some .bufferOverflow) []) := by
  rw [exec_eq_frame i s hi, h]
  exact congrArg _ (State.frame_too_long _ v ho hlong)

/-! ### The functions of `PWENC` and `PWDEC`, case by case (rules R261, R262) -/

theorem b64enc_ne_nil {y : Bytes} (hy : y ≠ []) : b64enc y ≠ [] := by
  have hpos := List.length_pos_of_ne_nil hy
  refine List.ne_nil_of_length_pos ?_
  rw [b64enc_length]
  omega

section
variable {key din y : Bytes}

theorem ne_nil_of_length_eight (h : key.length = 8) : key ≠ [] := by
  rintro rfl
  cases h

theorem passThrough_of_empty (h : din = [] ∨ key = []) : passThrough key din = true := by
  simpa [passThrough] using h

theorem passThrough_of_ne_nil (hdin : din ≠ []) (hkey : key ≠ []) : passThrough key din = false := by
  simp [passThrough, hdin, hkey]

theorem pwencFunction_passThrough (h : din = [] ∨ key = []) : pwencFunction key din = .ok din := by
  rw [pwencFunction, if_pos (passThrough_of_empty h)]

theorem pwdecFunction_passThrough (h : din = [] ∨ key = []) : pwdecFunction key din = .ok din := by
  rw [pwdecFunction, if_pos (passThrough_of_empty h)]

theorem passwordCheck_of_ne (h : key.length ≠ 8) : passwordCheck key = .error .invalidKeyLength := if_pos h

theorem passwordCheck_of_eq (h : key.length = 8) : passwordCheck key = .ok () := if_neg (not_not.2 h)

theorem pwencFunction_wrong_length (hdin : din ≠ []) (hkey : key ≠ []) (hlen : key.length ≠ 8) :
    pwencFunction key din = .error .invalidKeyLength := by
  simp [pwencFunction, passThrough_of_ne_nil hdin hkey, passwordCheck_of_ne hlen, Result.error_bind]

theorem pwdecFunction_wrong_length (hdin : din ≠ []) (hkey : key ≠ []) (hlen : key.length ≠ 8) :
    pwdecFunction key din = .error .invalidKeyLength := by
  simp [pwdecFunction, passThrough_of_ne_nil hdin hkey, passwordCheck_of_ne hlen, Result.error_bind]

/-- With data and a password of eight bytes `PWENC` cannot fail; PKCS7 reads no draw. -/
theorem pwencFunction_password (draw : Nat → Byte) (hdin : din ≠ []) (hlen : key.length = 8) :
    pwencFunction key din = .ok (b64enc (modeEnc .ecb key (key.take 8) (pad .pkcs7 draw din))) := by
  have hdraw : pad .pkcs7 draw din = pad .pkcs7 (fun _ => 0#8) din := rfl
  simp [pwencFunction, passThrough_of_ne_nil hdin (ne_nil_of_length_eight hlen), passwordCheck_of_eq hlen,
    Result.ok_bind, hdraw]

theorem pwdecFunction_password (hdin : din ≠ []) (hlen : key.length = 8) : pwdecFunction key din =
    (b64dec din >>= fun y => if y.length % 8 ≠ 0 then .error .unsupportedConfiguration
      else unpad .pkcs7 (modeDec .ecb key (key.take 8) y)) := by
  simp [pwdecFunction, passThrough_of_ne_nil hdin (ne_nil_of_length_eight hlen), passwordCheck_of_eq hlen,
    Result.ok_bind]

theorem pwdecFunction_malformed (hdin : din ≠ []) (hlen : key.length = 8) (h : ∀ y, din ≠ b64enc y) :
    pwdecFunction key din = .error .malformedEncoding := by
  rw [pwdecFunction_password hdin hlen, b64dec_of_ne_b64enc h, Result.error_bind]

theorem pwdecFunction_partial_block (htext : din = b64enc y) (hlen : key.length = 8) (hmod : y.length % 8 ≠ 0) :
    pwdecFunction key din = .error .unsupportedConfiguration := by
  have hy : y ≠ [] := by
    rintro rfl
    exact hmod rfl
  rw [htext, pwdecFunction_password (b64enc_ne_nil hy) hlen, b64dec_b64enc, Result.ok_bind, if_pos hmod]

/-- On the text of whole blocks the padding alone decides. -/
theorem pwdecFunction_whole_blocks (htext : din = b64enc y) (hy : y ≠ []) (hlen : key.length = 8)
    (hmod : y.length % 8 = 0) : pwdecFunction key din = unpad .pkcs7 (modeDec .ecb key (key.take 8) y) := by
  rw [htext, pwdecFunction_password (b64enc_ne_nil hy) hlen, b64dec_b64enc, Result.ok_bind, if_neg (not_not.2 hmod)]

/-! ### `PWENC` as an `ENC` with the password as a raw key (rule R260) -/

theorem keyOk_of_password (hlen : key.length = 8) : KeyOk false key := .inl hlen

theorem ivOk_ecb (iv : Bytes) : IvOk .ecb iv := fun h => absurd rfl h

theorem encLengthOk_ecb_pkcs7 (hdin : din ≠ []) : EncLengthOk .ecb .pkcs7 din.length :=
  ⟨List.length_pos_of_ne_nil hdin, nofun, nofun⟩

/-- `ENC` in ECB reads no IV, so its result under a raw key is that of `PWENC`. -/
theorem pwencFunction_eq_encFunction (ksize : Bool) (draw : Nat → Byte) (iv : Bytes) (hdin : din ≠ [])
    (hlen : key.length = 8) : pwencFunction key din = encFunction 0#3 2#3 false ksize true draw key iv din := by
  have hcheck : encCheck 0#3 2#3 false key iv din = .ok (.ecb, .pkcs7) := encCheck_eq_ok.2
    ⟨rfl, rfl, nofun, keyOk_of_password hlen, ivOk_ecb iv, encLengthOk_ecb_pkcs7 hdin⟩
  rw [pwencFunction_password draw hdin hlen, encFunction_of_encCheck (h := hcheck) ..]
  rfl

/-- The text `PWENC` answers is four characters for every three bytes of whole blocks, begun ones counted. -/
theorem pwenc_text_length (draw : Nat → Byte) (hdin : din ≠ []) (hlen : key.length = 8) :
    (b64enc (modeEnc .ecb key (key.take 8) (pad .pkcs7 draw din))).length =
      4 * ((8 * (din.length / 8 + 1) + 2) / 3) :=
  encTransform_length false true draw (keyOk_of_password hlen) (ivOk_ecb _) (encLengthOk_ecb_pkcs7 hdin)

/-- With data and a password `PWENC` answers the text of whole blocks, of which the padded data is the decryption. -/
theorem exists_blocks_of_pwenc (draw : Nat → Byte) (hdin : din ≠ []) (hlen : key.length = 8) :
    ∃ y, pwencFunction key din = .ok (b64enc y) ∧ y ≠ [] ∧ y.length % 8 = 0 ∧
      modeDec .ecb key (key.take 8) y = pad .pkcs7 draw din := by
  have hok := encLengthOk_ecb_pkcs7 hdin
  obtain ⟨hinv, hylen⟩ := modeDec_modeEnc_pad false draw (keyOk_of_password hlen) (ivOk_ecb (key.take 8)) hok
  obtain ⟨hpos, -, hwhole⟩ := decLengthOk_paddedLength hok
  rw [← hylen] at hpos hwhole
  exact ⟨_, pwencFunction_password draw hdin hlen, List.ne_nil_of_length_pos hpos, hwhole (by decide), hinv⟩

/-- What `PWENC` made, `PWDEC` undoes, in the pass-through cases as in the other. -/
theorem pwdecFunction_of_pwencFunction {v : Bytes} (h : pwencFunction key din = .ok v) :
    pwdecFunction key v = .ok din := by
  by_cases hpass : din = [] ∨ key = []
  · rw [pwencFunction_passThrough hpass] at h
    cases h
    exact pwdecFunction_passThrough hpass
  obtain ⟨hdin, hkey⟩ := not_or.1 hpass
  by_cases hlen : key.length = 8
  · obtain ⟨y, htext, hy, hmod, hinv⟩ := exists_blocks_of_pwenc (fun _ => 0#8) hdin hlen
    have hv : v = b64enc y := Except.ok.inj (h.symm.trans htext)
    rw [pwdecFunction_whole_blocks hv hy hlen hmod, hinv, unpad_pad (by decide)]
  · rw [pwencFunction_wrong_length hdin hkey hlen] at h
    cases h

end

/-- `PKCS7` draws nothing. -/
theorem encDraws_pkcs7 (mc : BitVec 3) (hash : Bool) (s : State) : encDraws mc 2#3 hash s = 0 := by
  unfold encDraws
  split
  · rfl
  · split
    · rename_i m p hcheck
      obtain ⟨-, hp, -⟩ := encCheck_eq_ok.1 hcheck
      cases hp
      rfl
    · rfl

/-- Settles O52: both are the frame around one result, and neither draws a byte. -/
theorem pwencEqualsEcbPkcs7Text : Obligations.PwencEqualsEcbPkcs7Text := by
  intro s ksize hdin hlen
  have hdraws : commandDraws (.enc 0#3 2#3 false ksize true) s = commandDraws .pwenc s := encDraws_pkcs7 0#3 false s
  have hres : commandFunction (.enc 0#3 2#3 false ksize true) s.nextDraw s.key s.iv s.din =
      commandFunction .pwenc s.nextDraw s.key s.iv s.din :=
    (pwencFunction_eq_encFunction ksize s.nextDraw s.iv hdin hlen).symm
  rw [exec_eq_frame .pwenc s (by simp), exec_eq_frame (.enc ..) s (by simp), hdraws, hres]

/-- Settles O50, by the three cases of the function; the length of the text decides whether it fits. -/
theorem pwencCompletes : Obligations.PwencCompletes := by
  refine ⟨fun s ho => exec_of_ovf ho (by simp), fun w => decode_error_of_opcode eq_pwenc_of_opcode,
    fun s draw ho => ⟨?_, ?_, ?_, ?_, ?_⟩⟩
  · exact fun hpass hfits => exec_of_fits (by simp) ho (pwencFunction_passThrough hpass) hfits
  · exact fun hpass hlong => exec_of_too_long (by simp) ho (pwencFunction_passThrough hpass) hlong
  · exact fun hdin hkey hlen => exec_of_error ho (pwencFunction_wrong_length hdin hkey hlen)
  · intro hdin hlen hfits
    rw [← pwenc_text_length draw hdin hlen] at hfits
    exact exec_of_fits (by simp) ho (pwencFunction_password draw hdin hlen) hfits
  · intro hdin hlen hlong
    rw [← pwenc_text_length draw hdin hlen] at hlong
    exact exec_of_too_long (by simp) ho (pwencFunction_password draw hdin hlen) hlong

/-- Settles O51, by the cases of the function; on the text of whole blocks it answers as `unpad` does. -/
theorem pwdecCompletes : Obligations.PwdecCompletes := by
  refine fun s ho => ⟨?_, ?_, ?_, ?_, ?_, ?_, ?_, ?_⟩
  · exact fun hpass hfits => exec_of_fits (by simp) ho (pwdecFunction_passThrough hpass) hfits
  · exact fun hpass hlong => exec_of_too_long (by simp) ho (pwdecFunction_passThrough hpass) hlong
  · exact fun hdin hkey hlen => exec_of_error ho (pwdecFunction_wrong_length hdin hkey hlen)
  · exact fun hdin hlen hno => exec_of_error ho (pwdecFunction_malformed hdin hlen hno)
  · exact fun y htext hlen hmod => exec_of_error ho (pwdecFunction_partial_block htext hlen hmod)
  · intro y k hy htext hlen hmod hunpad
    obtain rfl := unpad_eq_error hunpad
    exact exec_of_error ho ((pwdecFunction_whole_blocks htext hy hlen hmod).trans hunpad)
  · intro y v hy htext hlen hmod hunpad hfits
    exact exec_of_fits (by simp) ho ((pwdecFunction_whole_blocks htext hy hlen hmod).trans hunpad) hfits
  · intro y v hy htext hlen hmod hunpad hlong
    exact exec_of_too_long (by simp) ho ((pwdecFunction_whole_blocks htext hy hlen hmod).trans hunpad) hlong

/-- Settles O53: a `PWENC` that ended `DONE` left its function's result, which the function of `PWDEC` undoes. -/
theorem pwdecOfPwencIsTheData : Obligations.PwdecOfPwencIsTheData := by
  intro s t u hexec hdone hkey hdin ho hfits
  have hres : pwencFunction s.key s.din = .ok t.dout := commandFunction_of_done (by simp) hexec hdone
  have hback : pwdecFunction u.key u.din = .ok s.din := by
    rw [hkey, hdin]
    exact pwdecFunction_of_pwencFunction hres
  exact exec_of_fits (by simp) ho hback hfits

end Sys2Proof.Machine
end

-- The proofs of the families 47_control.md and 60_exceptions.md.
section
/-! PROOFS. The command `CLR` (47_control.md rule R275), which kinds a command can end with (60_exceptions.md rule
R302), and what one that ends with a kind leaves (rule R310). -/

namespace Sys2Proof

theorem eq_clr_of_opcode (j : Instr) (h : j.opcode = Instr.clr.opcode) : j = .clr := by
  cases j with
  | clr => rfl
  | b64e | b64d | kdf | enc | dec | pwenc | pwdec => cases h

end Sys2Proof

namespace Sys2Proof.Machine

/-! ### `CLR` (rule R275) -/

/-- To settle in `IDLE` with nothing standing is a reset: the two keep the same fields (rule R40). -/
theorem State.clear_eq_hardReset (s : State) : s.clear = s.hardReset := rfl

/-- Settles O54: `CLR` clears whatever `OVF` is, to what a reset event leaves; it alone has its `OP`. -/
theorem clrCompletes : Obligations.ClrCompletes :=
  ⟨fun s => (exec_clr s).trans (congrArg _ s.clear_eq_hardReset), decode_encode .clr,
    fun _ => decode_error_of_opcode eq_clr_of_opcode⟩

/-! ### The kind each check refuses with (rule R302) -/

/-- The one kind of a key that does not pass: of a raw key its length, of a passphrase that it is empty. -/
def keyError (hash : Bool) : ErrKind := if hash then .nullOrEmptyInput else .invalidKeyLength

section
variable {α : Type} {c : Prop} [Decidable c] {a : α} {e k : ErrKind}

/-- A check of one condition has one kind. -/
theorem kind_of_check (h : (if c then .error e else .ok a : Result α) = .error k) : k = e := by
  split at h <;> cases h
  rfl

end

section
variable {mc pc : BitVec 3} {hash ksize text : Bool} {key iv din : Bytes} {m : Mode} {p : Padding} {k : ErrKind}

theorem cfgCheck_eq_error (h : cfgCheck mc pc = .error k) : k = .unsupportedConfiguration := by
  unfold cfgCheck at h
  split at h
  · exact kind_of_check h
  · cases h
    rfl

theorem keyCheck_eq_error (h : keyCheck hash key = .error k) : k = keyError hash := by
  cases hash <;> simp only [keyCheck, true_and, false_and, if_false, reduceCtorEq] at h <;> exact kind_of_check h

theorem deriveKey_eq_error (h : deriveKey key hash ksize = .error k) : k = keyError hash := by
  cases hash with
  | false => exact kind_of_check h
  | true => exact kind_of_check h

theorem ivCheck_eq_error (h : ivCheck m iv = .error k) : k = .invalidIvLength :=
  kind_of_check ((ivCheck_eq_ite m iv).symm.trans h)

theorem dinCheck_eq_error (h : dinCheck din = .error k) : k = .nullOrEmptyInput := kind_of_check h

theorem dataCheck_eq_error {dir : Dir} {n : Nat} (h : dataCheck dir m p n = .error k) :
    k = .unsupportedConfiguration := by
  cases dir with
  | enc => exact kind_of_check ((dataCheck_enc_eq_ite m p n).symm.trans h)
  | dec => exact kind_of_check ((dataCheck_dec_eq_ite m p n).symm.trans h)

theorem passwordCheck_eq_error (h : passwordCheck key = .error k) : k = .invalidKeyLength := kind_of_check h

/-- The ciphertext is decoded only when it is text. -/
theorem text_of_ciphertext_error (h : ciphertext text din = .error k) : text = true := by
  cases text with
  | false => cases h
  | true => rfl

/-! ### The kinds of each command's function -/

/-- The checks `ENC` and `DEC` begin with, and what either goes on to do with the configuration. -/
theorem kind_of_checks {f : Mode × Padding → Result Bytes}
    (h : (cfgCheck mc pc >>= fun c => keyCheck hash key >>= fun _ => ivCheck c.1 iv >>= fun _ =>
      dinCheck din >>= fun _ => f c) = .error k) :
    (k = .unsupportedConfiguration ∨ k = keyError hash ∨ k = .invalidIvLength ∨ k = .nullOrEmptyInput) ∨
      ∃ c, f c = .error k := by
  simp only [Result.bind_eq_error] at h
  obtain h | ⟨c, -, h | ⟨-, -, h | ⟨-, -, h | ⟨-, -, h⟩⟩⟩⟩ := h
  · exact .inl (.inl (cfgCheck_eq_error h))
  · exact .inl (.inr (.inl (keyCheck_eq_error h)))
  · exact .inl (.inr (.inr (.inl (ivCheck_eq_error h))))
  · exact .inl (.inr (.inr (.inr (dinCheck_eq_error h))))
  · exact .inr ⟨c, h⟩

theorem canEndWith_of_encFunction {draw : Nat → Byte}
    (h : encFunction mc pc hash ksize text draw key iv din = .error k) :
    canEndWith (.enc mc pc hash ksize text) k = true := by
  rw [encFunction_eq] at h
  obtain (rfl | rfl | rfl | rfl) | ⟨c, h⟩ := kind_of_checks h
  · rfl
  · cases hash <;> rfl
  · rfl
  · rfl
  · obtain h | ⟨-, -, h⟩ := Result.bind_eq_error.1 h
    · obtain rfl := dataCheck_eq_error h
      rfl
    · cases h

theorem canEndWith_of_decFunction (h : decFunction mc pc hash ksize text key iv din = .error k) :
    canEndWith (.dec mc pc hash ksize text) k = true := by
  rw [decFunction_eq] at h
  obtain (rfl | rfl | rfl | rfl) | ⟨c, h⟩ := kind_of_checks h
  · rfl
  · cases hash <;> rfl
  · rfl
  · rfl
  · simp only [Result.bind_eq_error] at h
    obtain h | ⟨y, -, h | ⟨-, -, h⟩⟩ := h
    · obtain rfl := ciphertext_eq_error h
      exact text_of_ciphertext_error h
    · obtain rfl := dataCheck_eq_error h
      rfl
    · obtain rfl := unpad_eq_error h
      rfl

theorem canEndWith_of_pwencFunction (h : pwencFunction key din = .error k) : canEndWith .pwenc k = true := by
  unfold pwencFunction at h
  split at h
  · cases h
  · obtain h | ⟨-, -, h⟩ := Result.bind_eq_error.1 h
    · obtain rfl := passwordCheck_eq_error h
      rfl
    · cases h

theorem canEndWith_of_pwdecFunction (h : pwdecFunction key din = .error k) : canEndWith .pwdec k = true := by
  unfold pwdecFunction at h
  split at h
  · cases h
  · simp only [Result.bind_eq_error] at h
    obtain h | ⟨-, -, h | ⟨y, -, h⟩⟩ := h
    · obtain rfl := passwordCheck_eq_error h
      rfl
    · obtain rfl := b64dec_eq_error h
      rfl
    · split at h
      · cases h
        rfl
      · obtain rfl := unpad_eq_error h
        rfl

/-- The table of rule R302 has a cross for every kind a command's own function answers. -/
theorem canEndWith_of_commandFunction {i : Instr} {draw : Nat → Byte}
    (h : commandFunction i draw key iv din = .error k) : canEndWith i k = true := by
  cases i with
  | clr | b64e => cases h
  | b64d =>
    obtain rfl := b64dec_eq_error h
    rfl
  | kdf hash ksize =>
    obtain rfl := deriveKey_eq_error h
    cases hash <;> rfl
  | enc mc pc hash ksize text => exact canEndWith_of_encFunction h
  | dec mc pc hash ksize text => exact canEndWith_of_decFunction h
  | pwenc => exact canEndWith_of_pwencFunction h
  | pwdec => exact canEndWith_of_pwdecFunction h

end

/-! ### A command that ends with a kind (rules R302, R310) -/

section
variable {i : Instr} {s t : State} {w : Word} {k : ErrKind}

/-- Every command but `CLR` can overflow. -/
theorem canEndWith_bufferOverflow (hi : i ≠ .clr) : canEndWith i .bufferOverflow = true := by
  cases i with
  | clr => exact absurd rfl hi
  | b64e | b64d | kdf | enc | dec | pwenc | pwdec => rfl

/-- A kind that a command ended with is the frame's, or the error of its function. -/
theorem kind_of_exec (hi : i ≠ .clr) (h : exec i s = .next t) (hk : t.err = some k) :
    k = .bufferOverflow ∨ commandFunction i s.nextDraw s.key s.iv s.din = .error k := by
  rw [exec_eq_frame i s hi] at h
  cases h
  rcases State.frame_cases (s.advanceDraws (commandDraws i s)) (commandFunction i s.nextDraw s.key s.iv s.din) with
    ⟨-, h⟩ | ⟨-, e, hres, h⟩ | ⟨-, v, -, -, h⟩ | ⟨-, v, -, -, h⟩ <;> rw [h] at hk <;> cases hk
  · exact .inl rfl
  · exact .inr hres
  · exact .inl rfl

/-- A command word that ends with a kind settles in `ERROR` with it, with no result. -/
theorem settle_of_commandWrite (h : commandWrite w s = .next t) (hk : t.err = some k) :
    ∃ n, t = (s.advanceDraws n).settle .error (some k) [] := by
  obtain ⟨n, p, e, v, hw, -, herror, hout⟩ := commandWrite_settle w s
  cases hw.symm.trans h
  obtain rfl : e = some k := hk
  obtain rfl : p = .error := herror.1 (by simp)
  obtain rfl : v = [] := hout (by simp)
  exact ⟨n, rfl⟩

end

/-- The word rule R310 leaves in `STATUS`: the code of the kind, and `STATE` 2 alone below it. -/
theorem State.statusWord_settle_error (s : State) (k : ErrKind) :
    (s.settle .error (some k) []).statusWord = 0#24 ++ k.code ++ 2#4 := by
  rw [State.statusWord, s.settle_udf, s.settle_ovf, s.settle_err, s.settle_phase]
  cases k <;> decide

/-- Settles O55: `CLR` ends with no kind; of any other command the kind is an overflow or its function's. -/
theorem commandsEndOnlyWithTheirKinds : Obligations.CommandsEndOnlyWithTheirKinds := by
  intro i s t k h hk
  by_cases hi : i = .clr
  · subst hi
    cases h
    cases hk
  · obtain rfl | hres := kind_of_exec hi h hk
    · exact canEndWith_bufferOverflow hi
    · exact canEndWith_of_commandFunction hres

/-- Settles O56: of a word that ended with a kind only the kind and the draws taken remain, and none of the fields
named here reads the draws. -/
theorem errorLeavesNoOperand : Obligations.ErrorLeavesNoOperand := by
  intro s t w k h hk
  rw [step_write_cmd] at h
  obtain ⟨n, rfl⟩ := settle_of_commandWrite h hk
  exact ⟨rfl, State.statusWord_settle_error _ k, rfl, rfl, rfl, rfl, rfl, rfl⟩

end Sys2Proof.Machine
end
